-- ==== Sys2Proof/Word.lean ====
section
/-! DEFINITION. The data items of the TRM block's ports and stores (00_scope.md R17, R19; 30_encoding.md R103). -/

namespace Sys2Proof

/-- One byte of a datagram, payload or text. -/
abbrev Byte := BitVec 8

/-- A 32-bit word: a header word, an operand word, a response word, a 32-bit register. -/
abbrev Word := BitVec 32

/-- A timestamp field: 64 bits, read as two's complement (00_scope.md R17). -/
abbrev Timestamp := BitVec 64

/-- One IQ sample. It is opaque: stored, returned and compared, never interpreted (00_scope.md R14, 20_memory.md R74).
Its pattern of `SAMPLE_BITS` bits is held as a number; that it fits is `Config.sampleFits`. DESIGN CHOICE (log 1). -/
abbrev Sample := Nat

end Sys2Proof
end

