-- ==== Sys2Proof/Config.lean ====
section
/-! DEFINITION. The constants of the spec, the configuration registers (10_state.md R42) and the one free value. -/

namespace Sys2Proof

/-- The configuration registers: read-only, fixed before reset, written by no request (10_state.md R42), and the two
variant parameters of 00_scope.md R26. They stand in `State`, so every statement ranges over every configuration. -/
structure Config where
  /-- `CAP_RX` (00_scope.md R13, OPEN). -/
  capRx : Nat
  /-- `CAP_TX` (00_scope.md R13, OPEN). -/
  capTx : Nat
  /-- `SAMPLE_BITS` (00_scope.md R14, OPEN). -/
  sampleBits : Nat
  /-- `FRAME_MODULUS` (00_scope.md R6). -/
  frameModulus : Nat
  /-- `CLOCK_ADVANCE` (00_scope.md R7). -/
  clockAdvance : Nat
  /-- `ADVANCE_STEP` (00_scope.md R8). -/
  advanceStep : Nat
  /-- `CFG_TX_FREQ_KHZ` (00_scope.md R16), signed. -/
  txFreqKhz : Word
  /-- `CFG_RX_FREQ_KHZ` (00_scope.md R16), signed. -/
  rxFreqKhz : Word
  /-- `CFG_TSC` (00_scope.md R16), signed. -/
  tsc : Word
  /-- `CFG_BSIC` (00_scope.md R16), signed. -/
  bsic : Word
  /-- `CFG_RXGAIN_DB` (00_scope.md R16), signed. -/
  rxGainDb : Word
  /-- `CFG_POWER_DB` (00_scope.md R16), signed. -/
  powerDb : Word
  /-- `CFG_SLOT[0..7]` (00_scope.md R16), signed. -/
  slots : Vector Word 8
  /-- `FRAME_SUM_WRAPS` (00_scope.md R26, 41_frameclock.md R171). -/
  frameSumWraps : Bool
  /-- `STRICT_CLOCK_TEXT` (00_scope.md R26, 42_codec.md R201). -/
  strictClockText : Bool
  deriving DecidableEq, Repr

/-- `FRAME_MODULUS` as 00_scope.md R6 states it. -/
abbrev frameModulusValue : Nat := 2715648

/-- `DATA_SEND_SIZE` (00_scope.md R9). -/
abbrev dataSendSize : Nat := 154

/-- `DATA_RECV_SIZE` (00_scope.md R10). -/
abbrev dataRecvSize : Nat := 158

/-- `BURST_LEN` (00_scope.md R11). -/
abbrev burstLen : Nat := 148

/-- `NUM_TIMESLOTS` (00_scope.md R12). -/
abbrev numTimeslots : Nat := 8

/-- `MAX_DGRAM` (00_scope.md R18). -/
abbrev maxDgram : Nat := 65535

/-- The largest end timestamp a window may have, `2^63 - 1` (10_state.md R34). -/
abbrev maxTimestamp : Int := 9223372036854775807

/-- The ranges the spec gives the configuration registers (00_scope.md R6, R7, R8, R13). -/
abbrev Config.wf (c : Config) : Prop :=
  (1 ≤ c.capRx ∧ c.capRx ≤ 2147483647) ∧ (1 ≤ c.capTx ∧ c.capTx ≤ 2147483647) ∧
  c.frameModulus = frameModulusValue ∧ c.clockAdvance < c.frameModulus ∧ c.advanceStep < c.frameModulus

/-- The sample's pattern fits the width `SAMPLE_BITS` (00_scope.md R14). -/
abbrev Config.sampleFits (c : Config) (v : Sample) : Bool := decide (v < 2 ^ c.sampleBits)

/-- The configuration of the machine the host names: the defaults of 00_scope.md R6, R7, R8, R14, R26, and, where the spec
gives none, the values of 95_test_vectors.md section 0. DESIGN CHOICE (logs 2 and 3): capacities and setup values. -/
def Config.reference : Config where
  capRx := 8
  capTx := 8
  sampleBits := 32
  frameModulus := frameModulusValue
  clockAdvance := 20
  advanceStep := 20
  txFreqKhz := 890000#32
  rxFreqKhz := 935000#32
  tsc := 7#32
  bsic := 63#32
  rxGainDb := 20#32
  powerDb := 10#32
  slots := #v[4#32, 1#32, 1#32, 1#32, 1#32, 1#32, 1#32, 1#32]
  frameSumWraps := false
  strictClockText := false

/-- What a storage slot that holds no value would yield if it were read: a FREE VALUE, a fresh one for each draw and slot
(10_state.md R36, 93_implementation_defined.md I13 "any value"). No state a run reaches reads it (log 7). -/
opaque Config.unheldSample (draw slot : Nat) : Nat

end Sys2Proof
end

