-- ==== Sys2Proof/Syntax.lean ====
section
/-! DEFINITION. The requests of the block: one constructor of `Instr` per row of spec/opcode_table.json. -/

namespace Sys2Proof

/-- The FIFO selector `A`: 0 is `RX`, 1 is `TX` (30_encoding.md R111, 10_state.md R32). -/
inductive FifoSel where
  | rx
  | tx
  deriving DecidableEq, Repr

/-- The control commands, in the order of their ids 0..8 (30_encoding.md R112). -/
inductive Command where
  | powerOff
  | rxTune
  | txTune
  | setTsc
  | setBsic
  | powerOn
  | setRxGain
  | setPower
  | setSlot
  deriving DecidableEq, Repr

/-- The request formats (30_encoding.md R105). -/
inductive Format where
  | n
  | fs
  | v
  | cmd
  | burst
  | dg
  deriving DecidableEq, Repr

/-- The eighteen assigned opcodes (30_encoding.md R110). -/
inductive Opcode where
  | fifoOpen
  | fifoClose
  | fifoWrite
  | fifoRead
  | fifoStatus
  | clkHeartbeat
  | clkAdvance
  | clkTimeout
  | clkStatus
  | encDl
  | decUl
  | decClock
  | encCmd
  | sessSendCmd
  | sessSendBurst
  | rxClock
  | rxCtrl
  | rxData
  deriving DecidableEq, Repr

/-- A decoded request. Operand fields are kept as the bits the request carries (30_encoding.md R102); the meanings read them as
signed or unsigned. The length word `len` of format `DG` is the length of the datagram (R103). -/
inductive Instr where
  /-- FIFO.OPEN (40_fifo.md R142). -/
  | fifoOpen (fifo : FifoSel)
  /-- FIFO.CLOSE (40_fifo.md R143). -/
  | fifoClose (fifo : FifoSel)
  /-- FIFO.WRITE (40_fifo.md R144). -/
  | fifoWrite (fifo : FifoSel) (count : Word) (timestamp : Timestamp) (data : List Sample)
  /-- FIFO.READ (40_fifo.md R153). -/
  | fifoRead (fifo : FifoSel) (maxCount : Word) (timestamp : Timestamp)
  /-- FIFO.STATUS (40_fifo.md R158). -/
  | fifoStatus (fifo : FifoSel)
  /-- CLK.HEARTBEAT (41_frameclock.md R172). -/
  | clkHeartbeat (clock : Word)
  /-- CLK.ADVANCE (41_frameclock.md R175). -/
  | clkAdvance
  /-- CLK.TIMEOUT (41_frameclock.md R176). -/
  | clkTimeout
  /-- CLK.STATUS (41_frameclock.md R178). -/
  | clkStatus
  /-- ENC.DL (42_codec.md R191). -/
  | encDl (timeslot gain : Byte) (frameNumber : Word) (bits : List Byte)
  /-- DEC.UL (42_codec.md R194). -/
  | decUl (dgram : List Byte)
  /-- DEC.CLOCK (42_codec.md R198). -/
  | decClock (dgram : List Byte)
  /-- ENC.CMD (42_codec.md R202). -/
  | encCmd (cmd : Command) (arg1 arg2 : Word)
  /-- SESS.SENDCMD (43_session.md R222). -/
  | sessSendCmd (cmd : Command) (arg1 arg2 : Word)
  /-- SESS.SENDBURST (43_session.md R224). -/
  | sessSendBurst (timeslot gain : Byte) (frameNumber : Word) (bits : List Byte)
  /-- RX.CLOCK (43_session.md R228). -/
  | rxClock (dgram : List Byte)
  /-- RX.CTRL (43_session.md R231). -/
  | rxCtrl (dgram : List Byte)
  /-- RX.DATA (43_session.md R234). -/
  | rxData (dgram : List Byte)
  deriving DecidableEq, Repr

/-- A request as one transaction on `REQ` (30_encoding.md R100): the header word and the operand words, then the payload items
in order. An item is a sample or a byte; which, and how many, the opcode and `W1` fix (R103), so before decoding an item is
a bare number. -/
structure Request where
  /-- `H`, `W1`, … `Wk`. -/
  words : List Word
  /-- The payload items, item 0 first. -/
  payload : List Nat
  deriving DecidableEq, Repr

/-- The opcode of a request. -/
def Instr.opcode : Instr → Opcode
  | .fifoOpen _ => .fifoOpen
  | .fifoClose _ => .fifoClose
  | .fifoWrite _ _ _ _ => .fifoWrite
  | .fifoRead _ _ _ => .fifoRead
  | .fifoStatus _ => .fifoStatus
  | .clkHeartbeat _ => .clkHeartbeat
  | .clkAdvance => .clkAdvance
  | .clkTimeout => .clkTimeout
  | .clkStatus => .clkStatus
  | .encDl _ _ _ _ => .encDl
  | .decUl _ => .decUl
  | .decClock _ => .decClock
  | .encCmd _ _ _ => .encCmd
  | .sessSendCmd _ _ _ => .sessSendCmd
  | .sessSendBurst _ _ _ _ => .sessSendBurst
  | .rxClock _ => .rxClock
  | .rxCtrl _ => .rxCtrl
  | .rxData _ => .rxData

end Sys2Proof
end

