-- ==== Sys2Proof/WellFormed.lean ====
section
/-! DEFINITION. The checks of 30_encoding.md R113 that a request as a term can still fail. Its other checks (`op_assigned`,
`z_zero`, `b_zero`, `a_legal`) concern the header's bits: no term of `Instr` can fail them, and the decoder makes them. -/

namespace Sys2Proof

/-- `payload_len` (R113, R103): `max(0, count)` samples for FIFO.WRITE, 148 bytes for the burst formats. -/
def payloadLenOk : Instr → Bool
  | .fifoOpen _ => true
  | .fifoClose _ => true
  | .fifoWrite _ count _ data => data.length == count.toInt.toNat
  | .fifoRead _ _ _ => true
  | .fifoStatus _ => true
  | .clkHeartbeat _ => true
  | .clkAdvance => true
  | .clkTimeout => true
  | .clkStatus => true
  | .encDl _ _ _ bits => bits.length == burstLen
  | .decUl _ => true
  | .decClock _ => true
  | .encCmd _ _ _ => true
  | .sessSendCmd _ _ _ => true
  | .sessSendBurst _ _ _ bits => bits.length == burstLen
  | .rxClock _ => true
  | .rxCtrl _ => true
  | .rxData _ => true

/-- `dgram_len` (R113): a datagram has at most `MAX_DGRAM` bytes. -/
def dgramLenOk : Instr → Bool
  | .fifoOpen _ => true
  | .fifoClose _ => true
  | .fifoWrite _ _ _ _ => true
  | .fifoRead _ _ _ => true
  | .fifoStatus _ => true
  | .clkHeartbeat _ => true
  | .clkAdvance => true
  | .clkTimeout => true
  | .clkStatus => true
  | .encDl _ _ _ _ => true
  | .decUl d => decide (d.length ≤ maxDgram)
  | .decClock d => decide (d.length ≤ maxDgram)
  | .encCmd _ _ _ => true
  | .sessSendCmd _ _ _ => true
  | .sessSendBurst _ _ _ _ => true
  | .rxClock d => decide (d.length ≤ maxDgram)
  | .rxCtrl d => decide (d.length ≤ maxDgram)
  | .rxData d => decide (d.length ≤ maxDgram)

/-- Every sample has `SAMPLE_BITS` bits (R103). -/
def itemWidthOk (c : Config) : Instr → Bool
  | .fifoOpen _ => true
  | .fifoClose _ => true
  | .fifoWrite _ _ _ data => data.all c.sampleFits
  | .fifoRead _ _ _ => true
  | .fifoStatus _ => true
  | .clkHeartbeat _ => true
  | .clkAdvance => true
  | .clkTimeout => true
  | .clkStatus => true
  | .encDl _ _ _ _ => true
  | .decUl _ => true
  | .decClock _ => true
  | .encCmd _ _ _ => true
  | .sessSendCmd _ _ _ => true
  | .sessSendBurst _ _ _ _ => true
  | .rxClock _ => true
  | .rxCtrl _ => true
  | .rxData _ => true

/-- A well-formed request under configuration `c` (R113). -/
def WellFormed (c : Config) (i : Instr) : Bool :=
  payloadLenOk i && dgramLenOk i && itemWidthOk c i

end Sys2Proof
end

