-- ==== Sys2Proof/Decode.lean ====
section
/-! DEFINITION. From the words and items of a request to an instruction, or to the named check of 30_encoding.md R113 it fails;
then the encoder. -/

namespace Sys2Proof

/-! ## The opcode map and the formats -/

/-- The opcode byte (30_encoding.md R110). -/
def Opcode.byte : Opcode → Byte
  | .fifoOpen => 0x10#8
  | .fifoClose => 0x11#8
  | .fifoWrite => 0x12#8
  | .fifoRead => 0x13#8
  | .fifoStatus => 0x14#8
  | .clkHeartbeat => 0x20#8
  | .clkAdvance => 0x21#8
  | .clkTimeout => 0x22#8
  | .clkStatus => 0x23#8
  | .encDl => 0x30#8
  | .decUl => 0x31#8
  | .decClock => 0x32#8
  | .encCmd => 0x33#8
  | .sessSendCmd => 0x40#8
  | .sessSendBurst => 0x41#8
  | .rxClock => 0x42#8
  | .rxCtrl => 0x43#8
  | .rxData => 0x44#8

/-- The opcode map read from the byte; every other value is reserved (R110). -/
def allOpcodes : List Opcode :=
  [.fifoOpen, .fifoClose, .fifoWrite, .fifoRead, .fifoStatus, .clkHeartbeat, .clkAdvance, .clkTimeout, .clkStatus,
    .encDl, .decUl, .decClock, .encCmd, .sessSendCmd, .sessSendBurst, .rxClock, .rxCtrl, .rxData]

/-- The opcode a byte stands for, if it is assigned (R110). -/
def opcodeOfByte (b : Byte) : Option Opcode := allOpcodes.find? fun o => o.byte == b

/-- The format of an opcode (R110). -/
def Opcode.format : Opcode → Format
  | .fifoOpen => .n
  | .fifoClose => .n
  | .fifoWrite => .fs
  | .fifoRead => .fs
  | .fifoStatus => .n
  | .clkHeartbeat => .v
  | .clkAdvance => .n
  | .clkTimeout => .n
  | .clkStatus => .n
  | .encDl => .burst
  | .decUl => .dg
  | .decClock => .dg
  | .encCmd => .cmd
  | .sessSendCmd => .cmd
  | .sessSendBurst => .burst
  | .rxClock => .dg
  | .rxCtrl => .dg
  | .rxData => .dg

/-- The number `k` of operand words of a format (R105). -/
def Format.operandWords : Format → Nat
  | .n => 0
  | .fs => 3
  | .v => 1
  | .cmd => 2
  | .burst => 1
  | .dg => 1

/-! ## The rows of spec/opcode_table.json -/

/-- The `match` of the opcode's row. -/
def rowMatch : Opcode → Word
  | .fifoOpen => 0x10000000#32
  | .fifoClose => 0x11000000#32
  | .fifoWrite => 0x12000000#32
  | .fifoRead => 0x13000000#32
  | .fifoStatus => 0x14000000#32
  | .clkHeartbeat => 0x20000000#32
  | .clkAdvance => 0x21000000#32
  | .clkTimeout => 0x22000000#32
  | .clkStatus => 0x23000000#32
  | .encDl => 0x30000000#32
  | .decUl => 0x31000000#32
  | .decClock => 0x32000000#32
  | .encCmd => 0x33000000#32
  | .sessSendCmd => 0x40000000#32
  | .sessSendBurst => 0x41000000#32
  | .rxClock => 0x42000000#32
  | .rxCtrl => 0x43000000#32
  | .rxData => 0x44000000#32

/-- The `mask` of the opcode's row. -/
def rowMask : Opcode → Word
  | .fifoOpen | .fifoClose | .fifoWrite | .fifoRead | .fifoStatus => 0xFFFEFFFF#32
  | .clkHeartbeat | .clkAdvance | .clkTimeout | .clkStatus => 0xFFFFFFFF#32
  | .decUl | .decClock | .rxClock | .rxCtrl | .rxData => 0xFFFFFFFF#32
  | .encCmd | .sessSendCmd => 0xFF00FFFF#32
  | .encDl | .sessSendBurst => 0xFF0000FF#32

/-! ## Header fields (R101) and operands (R102) -/

/-- `H[31:24]`. -/
def headerOp (h : Word) : Byte := h.extractLsb' 24 8

/-- `H[23:16]`. -/
def headerA (h : Word) : Byte := h.extractLsb' 16 8

/-- `H[15:8]`. -/
def headerB (h : Word) : Byte := h.extractLsb' 8 8

/-- `H[7:0]`. -/
def headerZ (h : Word) : Byte := h.extractLsb' 0 8

/-- `op ‖ A ‖ B ‖ Z` (R101). -/
def header (op a b z : Byte) : Word := op ++ a ++ b ++ z

/-- `W2 ‖ W3`: the high word first (R102). -/
def joinWords (hi lo : Word) : Timestamp := hi ++ lo

/-- Bits 63..32 of a 64-bit operand. -/
def highWord (t : Timestamp) : Word := t.extractLsb' 32 32

/-- Bits 31..0 of a 64-bit operand. -/
def lowWord (t : Timestamp) : Word := t.extractLsb' 0 32

/-- The selector `A` of the FIFO formats (R111). -/
def fifoSelByte : FifoSel → Byte
  | .rx => 0#8
  | .tx => 1#8

/-- The instance a legal selector picks (R111). -/
def fifoSelOf (a : Byte) : FifoSel := if a = 0#8 then .rx else .tx

/-- The command id (R112). -/
def Command.id : Command → Byte
  | .powerOff => 0#8
  | .rxTune => 1#8
  | .txTune => 2#8
  | .setTsc => 3#8
  | .setBsic => 4#8
  | .powerOn => 5#8
  | .setRxGain => 6#8
  | .setPower => 7#8
  | .setSlot => 8#8

/-- The commands in id order (R112). -/
def allCommands : List Command :=
  [.powerOff, .rxTune, .txTune, .setTsc, .setBsic, .powerOn, .setRxGain, .setPower, .setSlot]

/-- The command a legal id stands for (R112). -/
def commandOfId (a : Byte) : Command := allCommands.getD a.toNat .powerOff

/-- `a_legal` (R113): which values of `A` the opcode admits. -/
def aLegal (o : Opcode) (a : Byte) : Bool :=
  match o with
  | .fifoOpen | .fifoClose | .fifoWrite | .fifoRead | .fifoStatus => a == 0#8 || a == 1#8
  | .clkHeartbeat | .clkAdvance | .clkTimeout | .clkStatus => a == 0#8
  | .decUl | .decClock | .rxClock | .rxCtrl | .rxData => a == 0#8
  | .encCmd | .sessSendCmd => decide (a.toNat ≤ 8)
  | .encDl | .sessSendBurst => true

/-- Operand word `W(i+1)`. -/
def operandWord (ws : List Word) (i : Nat) : Word := ws.getD i 0#32

/-- The number of payload items (R103), from the opcode and `W1` alone (R104). -/
def payloadLength (o : Opcode) (ws : List Word) : Nat :=
  match o with
  | .fifoWrite => (operandWord ws 0).toInt.toNat
  | .encDl | .sessSendBurst => burstLen
  | .decUl | .decClock | .rxClock | .rxCtrl | .rxData => (operandWord ws 0).toNat
  | .fifoOpen | .fifoClose | .fifoRead | .fifoStatus | .clkHeartbeat | .clkAdvance | .clkTimeout | .clkStatus
  | .encCmd | .sessSendCmd => 0

/-- The width of one payload item in bits (R103). -/
def itemBits (c : Config) (o : Opcode) : Nat :=
  match o with
  | .fifoWrite => c.sampleBits
  | .fifoOpen | .fifoClose | .fifoRead | .fifoStatus | .clkHeartbeat | .clkAdvance | .clkTimeout | .clkStatus
  | .encDl | .decUl | .decClock | .encCmd | .sessSendCmd | .sessSendBurst | .rxClock | .rxCtrl | .rxData => 8

/-! ## The decoder -/

/-- The check a request fails. The first six are named by R113; the last three are the model's (log 9): a request with no
header word, with another number of operand words than its format has, or with an item wider than its type. The block answers
each in the same way, with `ILLEGAL_OP`. -/
inductive Reject where
  | opAssigned
  | zZero
  | bZero
  | aLegal
  | dgramLen
  | payloadLen
  | noHeader
  | operandWords
  | itemWidth
  deriving DecidableEq, Repr

/-- The payload items read as bytes. -/
def bytesOf (items : List Nat) : List Byte := items.map (BitVec.ofNat 8)

/-- The instruction of a request that passed every check (R102). -/
def build (o : Opcode) (h : Word) (ws : List Word) (items : List Nat) : Instr :=
  match o with
  | .fifoOpen => .fifoOpen (fifoSelOf (headerA h))
  | .fifoClose => .fifoClose (fifoSelOf (headerA h))
  | .fifoWrite => .fifoWrite (fifoSelOf (headerA h)) (operandWord ws 0) (joinWords (operandWord ws 1) (operandWord ws 2)) items
  | .fifoRead => .fifoRead (fifoSelOf (headerA h)) (operandWord ws 0) (joinWords (operandWord ws 1) (operandWord ws 2))
  | .fifoStatus => .fifoStatus (fifoSelOf (headerA h))
  | .clkHeartbeat => .clkHeartbeat (operandWord ws 0)
  | .clkAdvance => .clkAdvance
  | .clkTimeout => .clkTimeout
  | .clkStatus => .clkStatus
  | .encDl => .encDl (headerA h) (headerB h) (operandWord ws 0) (bytesOf items)
  | .decUl => .decUl (bytesOf items)
  | .decClock => .decClock (bytesOf items)
  | .encCmd => .encCmd (commandOfId (headerA h)) (operandWord ws 0) (operandWord ws 1)
  | .sessSendCmd => .sessSendCmd (commandOfId (headerA h)) (operandWord ws 0) (operandWord ws 1)
  | .sessSendBurst => .sessSendBurst (headerA h) (headerB h) (operandWord ws 0) (bytesOf items)
  | .rxClock => .rxClock (bytesOf items)
  | .rxCtrl => .rxCtrl (bytesOf items)
  | .rxData => .rxData (bytesOf items)

/-- The checks on the operand words and the payload, once the header is legal (R103, R105, R113). -/
def decodeBody (c : Config) (o : Opcode) (h : Word) (ws : List Word) (items : List Nat) : Except Reject Instr :=
  if ws.length ≠ o.format.operandWords then .error .operandWords
  else if o.format = .dg ∧ maxDgram < (operandWord ws 0).toNat then .error .dgramLen
  else if items.length ≠ payloadLength o ws then .error .payloadLen
  else if items.all (fun x => decide (x < 2 ^ itemBits c o)) = false then .error .itemWidth
  else .ok (build o h ws items)

/-- The decoder: the instruction of a well-formed request, or a check of R113 that it fails. It depends on the
configuration only through the width of a sample (R103), never on any other state (R104). -/
def decode (c : Config) (r : Request) : Except Reject Instr :=
  match r.words with
  | [] => .error .noHeader
  | h :: ws =>
    match opcodeOfByte (headerOp h) with
    | none => .error .opAssigned
    | some o =>
      if headerZ h ≠ 0#8 then .error .zZero
      else if o.format ≠ .burst ∧ headerB h ≠ 0#8 then .error .bZero
      else if aLegal o (headerA h) = false then .error .aLegal
      else decodeBody c o h ws r.payload

/-! ## The encoder -/

/-- The payload items of a byte sequence. -/
def itemsOf (bytes : List Byte) : List Nat := bytes.map BitVec.toNat

/-- The length word of format `DG` (R102, R103). -/
def lengthWord (d : List Byte) : Word := BitVec.ofNat 32 d.length

/-- The request of an instruction, from the formats of R105. -/
def encode : Instr → Request
  | .fifoOpen f => ⟨[header (Opcode.byte .fifoOpen) (fifoSelByte f) 0#8 0#8], []⟩
  | .fifoClose f => ⟨[header (Opcode.byte .fifoClose) (fifoSelByte f) 0#8 0#8], []⟩
  | .fifoWrite f n t data =>
    ⟨[header (Opcode.byte .fifoWrite) (fifoSelByte f) 0#8 0#8, n, highWord t, lowWord t], data⟩
  | .fifoRead f m t => ⟨[header (Opcode.byte .fifoRead) (fifoSelByte f) 0#8 0#8, m, highWord t, lowWord t], []⟩
  | .fifoStatus f => ⟨[header (Opcode.byte .fifoStatus) (fifoSelByte f) 0#8 0#8], []⟩
  | .clkHeartbeat v => ⟨[header (Opcode.byte .clkHeartbeat) 0#8 0#8 0#8, v], []⟩
  | .clkAdvance => ⟨[header (Opcode.byte .clkAdvance) 0#8 0#8 0#8], []⟩
  | .clkTimeout => ⟨[header (Opcode.byte .clkTimeout) 0#8 0#8 0#8], []⟩
  | .clkStatus => ⟨[header (Opcode.byte .clkStatus) 0#8 0#8 0#8], []⟩
  | .encDl ts g fn bits => ⟨[header (Opcode.byte .encDl) ts g 0#8, fn], itemsOf bits⟩
  | .decUl d => ⟨[header (Opcode.byte .decUl) 0#8 0#8 0#8, lengthWord d], itemsOf d⟩
  | .decClock d => ⟨[header (Opcode.byte .decClock) 0#8 0#8 0#8, lengthWord d], itemsOf d⟩
  | .encCmd k a b => ⟨[header (Opcode.byte .encCmd) k.id 0#8 0#8, a, b], []⟩
  | .sessSendCmd k a b => ⟨[header (Opcode.byte .sessSendCmd) k.id 0#8 0#8, a, b], []⟩
  | .sessSendBurst ts g fn bits => ⟨[header (Opcode.byte .sessSendBurst) ts g 0#8, fn], itemsOf bits⟩
  | .rxClock d => ⟨[header (Opcode.byte .rxClock) 0#8 0#8 0#8, lengthWord d], itemsOf d⟩
  | .rxCtrl d => ⟨[header (Opcode.byte .rxCtrl) 0#8 0#8 0#8, lengthWord d], itemsOf d⟩
  | .rxData d => ⟨[header (Opcode.byte .rxData) 0#8 0#8 0#8, lengthWord d], itemsOf d⟩

/-! ## A request from one number, for the host's questions -/

/-- Bits `[pos, pos + width)` of a number, as a number. -/
def bitsAt (w pos width : Nat) : Nat := w / 2 ^ pos % 2 ^ width

/-- The `k` operand words that follow the header in a number: word `j` stands in bits `32 (j+1) + 31` to `32 (j+1)`. -/
def operandWordsAt (w k : Nat) : List Word := (List.range k).map fun j => BitVec.ofNat 32 (bitsAt w (32 * (j + 1)) 32)

/-- The request whose words and payload items stand one after another in the bits of `w`, the header in bits 31..0, every bit
from `nbits` on zero. Its number of words and of items is what the header and `W1` fix (30_encoding.md R104); an
unassigned opcode has the header alone (log 11). -/
def requestOfNumber (c : Config) (nbits w : Nat) : Request :=
  let v := w % 2 ^ nbits
  let h := BitVec.ofNat 32 (bitsAt v 0 32)
  match opcodeOfByte (headerOp h) with
  | none => ⟨[h], []⟩
  | some o =>
    let k := o.format.operandWords
    let ws := operandWordsAt v k
    let items := (List.range (payloadLength o ws)).map fun j => bitsAt v (32 * (k + 1) + itemBits c o * j) (itemBits c o)
    ⟨h :: ws, items⟩

/-- The instruction the decoder reads from such a number, under the reference configuration. -/
def decodeTableWord (nbits w : Nat) : Option Instr :=
  match decode Config.reference (requestOfNumber Config.reference nbits w) with
  | .ok i => some i
  | .error _ => none

end Sys2Proof
end

