-- ==== Sys2Proof/Machine/State.lean ====
section
/-! DEFINITION. The state of the TRM block as plain data, and the state after reset. -/

namespace Sys2Proof.Machine

open Sys2Proof

/-- The sample storage `S_F` of one instance (20_memory.md R70): pairs (slot, sample) with the slots strictly rising
(`Memory.wf`). A slot that is not listed holds no value (10_state.md R36), so no entry stands for it. -/
abbrev Memory := List (Nat × Sample)

/-- One FIFO instance (10_state.md R33). Its capacity is the configuration register `CAP_RX` or `CAP_TX`. -/
structure Fifo where
  /-- `F.open`. -/
  isOpen : Bool
  /-- `F.origin`, signed. -/
  origin : Timestamp
  /-- `F.length`. -/
  length : Word
  /-- `F.wcur`: the slot of the next append (10_state.md R35). -/
  wcur : Word
  /-- `S_F`. -/
  store : Memory
  deriving DecidableEq, Repr

/-- The status codes of a response (30_encoding.md R108). -/
inductive Status where
  | ok
  | invalidArg
  | stale
  | past
  | refused
  | dropLength
  | dropTimeslot
  | dropMalformed
  | illegalOp
  | closed
  deriving DecidableEq, Repr

/-- One response on `RSP` (30_encoding.md R106): `R0` is status and flags, `R1` the value, then the extra result words and
the payload items (bytes or samples) of the operation. -/
structure Response where
  status : Status
  flags : Byte
  value : Word
  extra : List Word
  payload : List Nat
  deriving DecidableEq, Repr

/-- The two channels of `TRX_OUT` (10_state.md R45). -/
inductive Channel where
  | control
  | data
  deriving DecidableEq, Repr

/-- The diagnostic events (60_exceptions.md R259). -/
inductive DiagCode where
  | overwrite
  | overflow
  | refusedCmd
  | refusedBurst
  | dropLength
  | dropTimeslot
  | dropMalformed
  | heartbeatLost
  | ctrlResponse
  deriving DecidableEq, Repr

/-- A decoded uplink burst (42_codec.md R195): the fields of the `UL_BURST` event (10_state.md R46). -/
structure UlBurst where
  timeslot : Byte
  frameNumber : Word
  /-- Signed 16 bits. -/
  rssi : BitVec 16
  /-- Signed 16 bits, Q8.8. -/
  toaRaw : BitVec 16
  /-- 148 signed 8-bit soft values. -/
  soft : List Byte
  deriving DecidableEq, Repr

/-- The events on `UP` (10_state.md R46). -/
inductive UpEvent where
  | ulBurst (burst : UlBurst)
  | frameInd (frame : Word)
  deriving DecidableEq, Repr

/-- One output, tagged with its port (10_state.md R45). -/
inductive Output where
  | trx (channel : Channel) (dgram : List Byte)
  | up (event : UpEvent)
  | diag (code : DiagCode)
  | rsp (response : Response)
  deriving DecidableEq, Repr

/-- The state of the block. -/
structure State where
  /-- The configuration registers (10_state.md R42). -/
  cfg : Config
  /-- The receive instance (10_state.md R32). -/
  rx : Fifo
  /-- The transmit instance (10_state.md R32). -/
  tx : Fifo
  /-- `available` (10_state.md R37). -/
  available : Bool
  /-- `setupComplete` (10_state.md R37). -/
  setupComplete : Bool
  /-- `trxFrame` (10_state.md R37). -/
  trxFrame : Word
  /-- `currentFrame` (10_state.md R37). -/
  currentFrame : Word
  /-- The `REQ` port: the requests still to be accepted, in the order the port accepts them (20_memory.md R80). DESIGN CHOICE (log 5). -/
  req : List Request
  /-- The output ports: everything emitted so far, in order (10_state.md R47). DESIGN CHOICE (log 6). -/
  out : List Output
  /-- The model's own counter behind the free value `Config.unheldSample`. DESIGN CHOICE (log 7). -/
  draws : Nat
  deriving DecidableEq, Repr

/-- The block never stops: "The block has no fatal condition" (60_exceptions.md R252) and after any status it "takes the next
request" (R250). There is no fault to name, so the type has no constructor (log 8). -/
inductive Fault where
  deriving DecidableEq, Repr

/-- Why a step has no meaning. -/
inductive Refusal where
  /-- Raised by an arm of `exec` whose instruction has no meaning yet. Safe: nothing is proved about such a step. No arm
  of this model raises it. -/
  | notModelled (mnemonic : String)
  deriving DecidableEq, Repr

/-- An instance that holds nothing (70_reset_and_hazards.md R280, 40_fifo.md R142, R143), open or closed. -/
def emptyFifo (isOpen : Bool) : Fifo where
  isOpen := isOpen
  origin := 0#64
  length := 0#32
  wcur := 0#32
  store := []

/-- Reset under given configuration registers, which reset leaves unchanged (70_reset_and_hazards.md R280). -/
def State.resetWith (c : Config) : State where
  cfg := c
  rx := emptyFifo false
  tx := emptyFifo false
  available := false
  setupComplete := false
  trxFrame := 0#32
  currentFrame := 0#32
  req := []
  out := []
  draws := 0

/-- The state right after reset (70_reset_and_hazards.md R280), under the reference configuration (logs 2 and 3). -/
def State.reset : State := State.resetWith Config.reference

end Sys2Proof.Machine
end

