-- ==== Sys2Proof/Machine/Ops.lean ====
section
/-! DEFINITION. The named operations over the sample stores, the instances, the ports and the response; and `raise`, the one way
an operation fails. -/

namespace Sys2Proof.Machine

open Sys2Proof

/-- The answer of a step or a meaning. -/
abbrev Result := Host.Outcome State Fault Refusal

/-! ## Sample storage (20_memory.md R73) -/

/-- The value a slot holds, or `none` when it holds no value. -/
def Memory.read : Memory → Nat → Option Sample
  | [], _ => none
  | (b, w) :: rest, a => if b = a then some w else Memory.read rest a

/-- `S_F[a] <- v`, keeping the slots strictly rising. -/
def Memory.write : Memory → Nat → Sample → Memory
  | [], a, v => [(a, v)]
  | (b, w) :: rest, a, v =>
    if a < b then (a, v) :: (b, w) :: rest
    else if a = b then (a, v) :: rest
    else (b, w) :: Memory.write rest a v

/-- A run of SampleWrites, in order. -/
def Memory.writeAll (m : Memory) (cells : List (Nat × Sample)) : Memory :=
  cells.foldl (fun m p => Memory.write m p.1 p.2) m

/-- The canonical form: slots strictly rising. An unlisted slot holds no value, so no entry can repeat what it reads as. -/
abbrev Memory.wf (m : Memory) : Prop := List.Pairwise (fun p q => p.1 < q.1) m

/-- SampleRead. A slot that holds no value yields the free value of the given draw, at the width of a sample
(93_implementation_defined.md I13); "a FIFO rule never calls SampleRead on a slot that holds no value" (R73, log 7). -/
def sampleRead (c : Config) (draw : Nat) (m : Memory) (slot : Nat) : Sample :=
  (Memory.read m slot).getD (Config.unheldSample draw slot % 2 ^ c.sampleBits)

/-! ## Instances -/

/-- The instance a selector picks (30_encoding.md R111). -/
def State.fifo (s : State) : FifoSel → Fifo
  | .rx => s.rx
  | .tx => s.tx

/-- Replace one instance. -/
def State.setFifo (s : State) (f : FifoSel) (F : Fifo) : State :=
  match f with
  | .rx => { s with rx := F }
  | .tx => { s with tx := F }

/-- `F.capacity` (10_state.md R33): the configuration register of the instance. -/
def capacityOf (c : Config) : FifoSel → Nat
  | .rx => c.capRx
  | .tx => c.capTx

/-- `F.capacity` in a state. -/
def State.capacity (s : State) (f : FifoSel) : Nat := capacityOf s.cfg f

/-- The end `E = F.origin + F.length` of the window (00_scope.md R25). -/
def Fifo.endTime (F : Fifo) : Int := F.origin.toInt + F.length.toNat

/-- `head(F)`, the slot of the oldest live sample (20_memory.md R71). -/
def Fifo.head (F : Fifo) (C : Nat) : Int := (F.wcur.toNat - F.length.toNat : Int) % C

/-- `slot(F, s)`, the slot of the live sample at timestamp `s` (20_memory.md R71). -/
def Fifo.slot (F : Fifo) (C : Nat) (s : Int) : Nat := ((F.head C + (s - F.origin.toInt)) % C).toNat

/-- The sample a FIFO holds for timestamp `s`: `none` when `s` is outside the window (or its slot holds no value, which no
reachable state has). -/
def Fifo.sampleAt (F : Fifo) (C : Nat) (s : Int) : Option Sample :=
  if F.origin.toInt ≤ s ∧ s < F.endTime then Memory.read F.store (F.slot C s) else none

/-! ## Ports (10_state.md R45 to R47) -/

/-- Append outputs, oldest first. -/
def State.emit (s : State) (os : List Output) : State := { s with out := s.out ++ os }

/-- `emit(ch, bytes)` (00_scope.md R22). -/
def State.emitTrx (s : State) (ch : Channel) (dgram : List Byte) : State := s.emit [.trx ch dgram]

/-- `up(event)` (00_scope.md R22). -/
def State.emitUp (s : State) (e : UpEvent) : State := s.emit [.up e]

/-- `diag(code)` (00_scope.md R22). -/
def State.emitDiag (s : State) (d : DiagCode) : State := s.emit [.diag d]

/-- `diag(code)` when a condition holds. -/
def State.emitDiagIf (s : State) (b : Bool) (d : DiagCode) : State := if b then s.emitDiag d else s

/-- `respond(status, flags, value, extra, payload)` (00_scope.md R22): the response completes the operation. -/
def State.respond (s : State) (st : Status) (flags : Byte) (value : Int) (extra : List Word) (payload : List Nat) : State :=
  s.emit [.rsp ⟨st, flags, BitVec.ofInt 32 value, extra, payload⟩]

/-- The number of a status (30_encoding.md R108). -/
def Status.code : Status → Nat
  | .ok => 0
  | .invalidArg => 1
  | .stale => 2
  | .past => 3
  | .refused => 4
  | .dropLength => 5
  | .dropTimeslot => 6
  | .dropMalformed => 7
  | .illegalOp => 8
  | .closed => 9

/-- The byte of a diagnostic event (60_exceptions.md R259). -/
def DiagCode.code : DiagCode → Byte
  | .overwrite => 1#8
  | .overflow => 2#8
  | .refusedCmd => 3#8
  | .refusedBurst => 4#8
  | .dropLength => 5#8
  | .dropTimeslot => 6#8
  | .dropMalformed => 7#8
  | .heartbeatLost => 8#8
  | .ctrlResponse => 9#8

/-- `raise STATUS` (00_scope.md R22, 30_encoding.md R109): the block has no traps, and this is all that a failing operation
does: the response with flags 0 and value `-code`, no extra words, no payload, no state change. -/
def State.raise (s : State) (st : Status) : State := s.respond st 0#8 (-(st.code : Int)) [] []

/-- The words of a response: `R0 = status ‖ flags ‖ 0x0000`, `R1 = value`, then the extra words (30_encoding.md R106). -/
def Response.words (r : Response) : List Word :=
  header (BitVec.ofNat 8 r.status.code) r.flags 0#8 0#8 :: r.value :: r.extra

/-! ## The request port (20_memory.md R80) -/

/-- The request `REQ` presents, if any. -/
def State.presented (s : State) : Option Request := s.req.head?

/-- Accept the request presented: the next one stands first. -/
def State.accept (s : State) : State := { s with req := s.req.tail }

/-- Present a request before all others. -/
def State.present (s : State) (r : Request) : State := { s with req := r :: s.req }

/-- The answer to a request that is not well formed (30_encoding.md R113, R114). -/
def refuseIllegal (s : State) : Result := .next (s.raise .illegalOp)

end Sys2Proof.Machine
end

