-- ==== Sys2Proof/Machine/Operands.lean ====
section
/-! DEFINITION. How the operand fields are read (30_encoding.md R102), and the quantities of the FIFO pseudocode that they give
(40_fifo.md R144, R153), one definition per name of the pseudocode. All arithmetic is on mathematical integers (00_scope.md R20). -/

namespace Sys2Proof.Machine

open Sys2Proof

/-- `count` and `maxCount`, `arg1` and `arg2`: `sext_32` of the operand word. -/
def signedWord (w : Word) : Int := w.toInt

/-- `timestamp`: `sext_64(W2 ‖ W3)`. -/
def signedTimestamp (t : Timestamp) : Int := t.toInt

/-- `clock` and `frameNumber`: `zext_32` of the operand word. -/
def unsignedWord (w : Word) : Nat := w.toNat

/-- `timeslot`: `zext_8(A)`. -/
def unsignedByte (b : Byte) : Nat := b.toNat

/-! ## FIFO.WRITE (40_fifo.md R144): `F` the instance before, `C` its capacity, `n` the count, `t` the timestamp -/

/-- `O`: the origin before the write; an empty instance takes `t` (R149). -/
def writeO (F : Fifo) (t : Int) : Int := if F.length.toNat = 0 then t else F.origin.toInt

/-- `E = O + L`: the end before the write. -/
def writeE (F : Fifo) (t : Int) : Int := writeO F t + F.length.toNat

/-- `E2`: the end after the write. -/
def writeE2 (F : Fifo) (n t : Int) : Int := max (writeE F t) (t + n)

/-- `O2`: the origin after eviction (R151). -/
def writeO2 (F : Fifo) (C : Nat) (n t : Int) : Int := max (writeO F t) (writeE2 F n t - C)

/-- `L2`: the length after the write. -/
def writeL2 (F : Fifo) (C : Nat) (n t : Int) : Int := writeE2 F n t - writeO2 F C n t

/-- `wc2`: the append slot after the write. -/
def writeWc2 (F : Fifo) (C : Nat) (n t : Int) : Int := (F.wcur.toNat + (writeE2 F n t - writeE F t)) % C

/-- `h2`: the slot of `O2`. -/
def writeH2 (F : Fifo) (C : Nat) (n t : Int) : Int := (writeWc2 F C n t - writeL2 F C n t) % C

/-- The slot of timestamp `s` in the window after the write: `(h2 + (s - O2)) mod C`. -/
def writeSlot (F : Fifo) (C : Nat) (n t s : Int) : Nat := ((writeH2 F C n t + (s - writeO2 F C n t)) % C).toNat

/-- The first timestamp the write makes live: `max(E, O2)`. -/
def writeFirstNew (F : Fifo) (C : Nat) (n t : Int) : Int := max (writeE F t) (writeO2 F C n t)

/-- The cells of the zero fill: every timestamp in `[max(E, O2), E2)` (R147). -/
def zeroCells (F : Fifo) (C : Nat) (n t : Int) : List (Nat × Sample) :=
  (List.range (writeE2 F n t - writeFirstNew F C n t).toNat).map fun (j : Nat) =>
    (writeSlot F C n t (writeFirstNew F C n t + (j : Int)), 0)

/-- The cells of the data: sample `i` at timestamp `t + i` (R147). -/
def dataCells (F : Fifo) (C : Nat) (n t : Int) (data : List Sample) : List (Nat × Sample) :=
  data.zipIdx.map fun (p : Sample × Nat) => (writeSlot F C n t (t + (p.2 : Int)), p.1)

/-- The instance after a FIFO.WRITE with status OK (R144). -/
def Fifo.written (F : Fifo) (C : Nat) (n t : Int) (data : List Sample) : Fifo where
  isOpen := F.isOpen
  origin := BitVec.ofInt 64 (writeO2 F C n t)
  length := BitVec.ofInt 32 (writeL2 F C n t)
  wcur := BitVec.ofInt 32 (writeWc2 F C n t)
  store := Memory.writeAll (Memory.writeAll F.store (zeroCells F C n t)) (dataCells F C n t data)

/-! ## FIFO.READ (40_fifo.md R153): `m` the maximum count -/

/-- `r = min(m, E - t)`: the number of samples returned (R156). -/
def readCount (F : Fifo) (m t : Int) : Nat := (min m (F.endTime - t)).toNat

/-- `out[0..r-1]`: the samples at timestamps `t .. t+r-1`. -/
def readSpan (c : Config) (draw : Nat) (F : Fifo) (C : Nat) (m t : Int) : List Sample :=
  (List.range (readCount F m t)).map fun (i : Nat) => sampleRead c draw F.store (F.slot C (t + (i : Int)))

/-- The instance after a FIFO.READ inside the window (R156); `F.wcur` and the storage are not written. -/
def Fifo.consumed (F : Fifo) (m t : Int) : Fifo :=
  { F with
    origin := BitVec.ofInt 64 (t + readCount F m t)
    length := BitVec.ofInt 32 (F.endTime - (t + readCount F m t)) }

end Sys2Proof.Machine
end

