-- ==== Sys2Proof/Machine/CodecOps.lean ====
section
/-! DEFINITION. The functions the codec and session operations share: `EncDL`, `DecUL`, `DecClock`, `EncCmd` (42_codec.md), and
the setup sequence (41_frameclock.md R173). They are functions of their arguments alone (10_state.md R41). -/

namespace Sys2Proof.Machine

open Sys2Proof

/-! ## Bytes and text -/

/-- The four bytes of a word, most significant first (20_memory.md R75). -/
def bigEndian32 (w : Word) : List Byte :=
  [w.extractLsb' 24 8, w.extractLsb' 16 8, w.extractLsb' 8 8, w.extractLsb' 0 8]

/-- `be32` (00_scope.md R20). -/
def be32 (b0 b1 b2 b3 : Byte) : Nat := b0.toNat * 2 ^ 24 + b1.toNat * 2 ^ 16 + b2.toNat * 2 ^ 8 + b3.toNat

/-- `be16` (00_scope.md R20). -/
def be16 (b0 b1 : Byte) : Nat := b0.toNat * 2 ^ 8 + b1.toNat

/-- Byte `k` of a datagram. -/
def byteAt (d : List Byte) (k : Nat) : Byte := d.getD k 0#8

/-- ASCII characters as bytes. -/
def ascii (cs : List Char) : List Byte := cs.map fun ch => BitVec.ofNat 8 ch.toNat

/-! ## Downlink bursts (R192) -/

/-- `EncDL`: the datagram of `DATA_SEND_SIZE` bytes. Header and payload fill it, so the padding adds no byte. -/
def encDlBytes (ts : Byte) (fn : Word) (gain : Byte) (bits : List Byte) : List Byte :=
  ts :: bigEndian32 fn ++ gain :: bits

/-- The timeslot check of ENC.DL and SESS.SENDBURST (R191). -/
def timeslotOk (ts : Byte) : Bool := decide (unsignedByte ts < numTimeslots)

/-! ## Uplink bursts (R195 to R197) -/

/-- `DecUL`: the fields of an uplink datagram; bytes 156 and 157 are not read. -/
def decUlFields (d : List Byte) : UlBurst where
  timeslot := byteAt d 0
  frameNumber := BitVec.ofNat 32 (be32 (byteAt d 1) (byteAt d 2) (byteAt d 3) (byteAt d 4))
  rssi := BitVec.ofInt 16 (-((byteAt d 5).toNat : Int))
  toaRaw := BitVec.ofNat 16 (be16 (byteAt d 6) (byteAt d 7))
  soft := (List.range burstLen).map fun i => BitVec.ofInt 8 (127 - ((byteAt d (8 + i)).toNat : Int))

/-- The uplink checks, the length before the timeslot (R197): the burst, or the status of the check that fails. -/
def decodeUplink (d : List Byte) : Except Status UlBurst :=
  if d.length ≠ dataRecvSize then .error .dropLength
  else if timeslotOk (byteAt d 0) = false then .error .dropTimeslot
  else .ok (decUlFields d)

/-! ## Clock text (R199 to R201) -/

/-- `"IND CLOCK "`. -/
def clockPrefix : List Byte := ascii ['I', 'N', 'D', ' ', 'C', 'L', 'O', 'C', 'K', ' ']

/-- An ASCII digit, 0x30 to 0x39. -/
def isDigit (b : Byte) : Bool := decide (0x30 ≤ b.toNat ∧ b.toNat ≤ 0x39)

/-- Digits read as a decimal number, most significant first. -/
def decimalValue (ds : List Byte) : Nat := ds.foldl (fun acc b => acc * 10 + (b.toNat - 0x30)) 0

/-- `T`: the datagram up to its first 0x00 byte (R199). -/
def clockText (d : List Byte) : List Byte := d.takeWhile fun b => b != 0#8

/-- The value of a well-formed clock text (R199, R200). -/
def clockTextValue (t : List Byte) : Option Word :=
  let ds := t.drop clockPrefix.length
  if t.take clockPrefix.length = clockPrefix ∧ ds ≠ [] ∧ ds.all isDigit = true ∧ decimalValue ds < 2 ^ 32 then
    some (BitVec.ofNat 32 (decimalValue ds))
  else none

/-- `DecClock` (R199): the clock value, or `none` for malformed. Under `STRICT_CLOCK_TEXT` the datagram must be the text and
exactly one 0x00 (R201). -/
def decClockValue (c : Config) (d : List Byte) : Option Word :=
  if c.strictClockText && (d != clockText d ++ [0#8]) then none else clockTextValue (clockText d)

/-! ## Command text (R203 to R205) -/

/-- The ASCII digit of a number below 10. -/
def digitByte (k : Nat) : Byte := BitVec.ofNat 8 (0x30 + k)

/-- The decimal digits of `n`, in at most `fuel + 1` places, with no leading zero. -/
def decimalDigits : Nat → Nat → List Byte
  | 0, n => [digitByte (n % 10)]
  | fuel + 1, n => if n < 10 then [digitByte n] else decimalDigits fuel (n / 10) ++ [digitByte (n % 10)]

/-- An argument in decimal (R204). Ten digits hold every magnitude of a signed 32-bit word. -/
def decimalArg (a : Int) : List Byte :=
  (if a < 0 then ascii ['-'] else []) ++ decimalDigits 9 a.natAbs

/-- The command names in upper-case ASCII (30_encoding.md R112). -/
def commandName : Command → List Char
  | .powerOff => ['P', 'O', 'W', 'E', 'R', 'O', 'F', 'F']
  | .rxTune => ['R', 'X', 'T', 'U', 'N', 'E']
  | .txTune => ['T', 'X', 'T', 'U', 'N', 'E']
  | .setTsc => ['S', 'E', 'T', 'T', 'S', 'C']
  | .setBsic => ['S', 'E', 'T', 'B', 'S', 'I', 'C']
  | .powerOn => ['P', 'O', 'W', 'E', 'R', 'O', 'N']
  | .setRxGain => ['S', 'E', 'T', 'R', 'X', 'G', 'A', 'I', 'N']
  | .setPower => ['S', 'E', 'T', 'P', 'O', 'W', 'E', 'R']
  | .setSlot => ['S', 'E', 'T', 'S', 'L', 'O', 'T']

/-- The arguments a command uses (R205). -/
def usedArgs (k : Command) (a1 a2 : Int) : List Int :=
  match k with
  | .powerOff | .powerOn => []
  | .rxTune | .txTune | .setTsc | .setBsic | .setRxGain | .setPower => [a1]
  | .setSlot => [a1, a2]

/-- `EncCmd`: `"CMD "`, the name, each argument after one space, then 0x00 (R203). -/
def encCmdBytes (k : Command) (a1 a2 : Word) : List Byte :=
  ascii ['C', 'M', 'D', ' '] ++ ascii (commandName k) ++
    (usedArgs k (signedWord a1) (signedWord a2)).flatMap (fun a => ascii [' '] ++ decimalArg a) ++ [0#8]

/-! ## The setup sequence (41_frameclock.md R173) -/

/-- The sixteen commands with their arguments, in order. -/
def setupSequence (c : Config) : List (Command × Word × Word) :=
  [(.powerOff, 0#32, 0#32), (.txTune, c.txFreqKhz, 0#32), (.rxTune, c.rxFreqKhz, 0#32), (.setTsc, c.tsc, 0#32),
    (.setBsic, c.bsic, 0#32), (.powerOn, 0#32, 0#32), (.setRxGain, c.rxGainDb, 0#32), (.setPower, c.powerDb, 0#32)] ++
  c.slots.toList.zipIdx.map fun p => (.setSlot, BitVec.ofNat 32 p.2, p.1)

/-- The setup sequence as CONTROL datagrams. -/
def setupOutputs (c : Config) : List Output :=
  (setupSequence c).map fun x => .trx .control (encCmdBytes x.1 x.2.1 x.2.2)

end Sys2Proof.Machine
end

