-- ==== Sys2Proof/Machine/Codec.lean ====
section
/-! DEFINITION. The codec operations (42_codec.md). Their only output is the response (R190). -/

namespace Sys2Proof.Machine

open Sys2Proof

/-- ENC.DL (R191). -/
def execEncDl (ts gain : Byte) (fn : Word) (bits : List Byte) (s : State) : Result :=
  if timeslotOk ts = false then .next (s.raise .invalidArg)
  else .next (s.respond .ok 0#8 dataSendSize [] (itemsOf (encDlBytes ts fn gain bits)))

/-- DEC.UL (R194): `R2 = ts`, `R3 = fn`, `R4 = sext_32(rssi)`, `R5 = sext_32(toaRaw)`, payload the soft values. -/
def execDecUl (d : List Byte) (s : State) : Result :=
  match decodeUplink d with
  | .error st => .next (s.raise st)
  | .ok u =>
    .next (s.respond .ok 0#8 burstLen [u.timeslot.zeroExtend 32, u.frameNumber, u.rssi.signExtend 32, u.toaRaw.signExtend 32]
      (itemsOf u.soft))

/-- DEC.CLOCK (R198). -/
def execDecClock (d : List Byte) (s : State) : Result :=
  match decClockValue s.cfg d with
  | none => .next (s.raise .dropMalformed)
  | some v => .next (s.respond .ok 0#8 0 [v] [])

/-- ENC.CMD (R202). -/
def execEncCmd (k : Command) (a1 a2 : Word) (s : State) : Result :=
  let b := encCmdBytes k a1 a2
  .next (s.respond .ok 0#8 b.length [] (itemsOf b))

end Sys2Proof.Machine
end

