-- ==== Sys2Proof/Machine/Flags.lean ====
section
/-! DEFINITION. The response flags of FIFO.WRITE (30_encoding.md R107, 40_fifo.md R148). No other operation sets a flag, and no
flag is stored (10_state.md R44). -/

namespace Sys2Proof.Machine

open Sys2Proof

/-- `OVF`: at least one sample was evicted. -/
def flagOvf (F : Fifo) (C : Nat) (n t : Int) : Bool := decide (writeO F t < writeO2 F C n t)

/-- `OVW`: the write's span meets live data. -/
def flagOvw (F : Fifo) (n t : Int) : Bool := decide (0 < n ∧ t < writeE F t)

/-- `ZF`: there was a gap before the first sample. -/
def flagZf (F : Fifo) (t : Int) : Bool := decide (writeE F t < t)

/-- The flag byte: `OVF` bit 0, `OVW` bit 1, `ZF` bit 2, bits 7..3 zero (R107). -/
def flagByte (ovf ovw zf : Bool) : Byte := 0#5 ++ BitVec.ofBool zf ++ BitVec.ofBool ovw ++ BitVec.ofBool ovf

/-- The flags of a FIFO.WRITE with status OK. -/
def writeFlags (F : Fifo) (C : Nat) (n t : Int) : Byte := flagByte (flagOvf F C n t) (flagOvw F n t) (flagZf F t)

end Sys2Proof.Machine
end

