-- ==== Sys2Proof/Machine/FifoFamily.lean ====
section
/-! DEFINITION. The sample FIFO operations (40_fifo.md). Each acts on one instance and on nothing of the other or of the
frame-clock unit (R140). -/

namespace Sys2Proof.Machine

open Sys2Proof

/-- FIFO.OPEN (R142). -/
def execFifoOpen (f : FifoSel) (s : State) : Result :=
  .next ((s.setFifo f (emptyFifo true)).respond .ok 0#8 0 [] [])

/-- FIFO.CLOSE (R143). -/
def execFifoClose (f : FifoSel) (s : State) : Result :=
  .next ((s.setFifo f (emptyFifo false)).respond .ok 0#8 0 [] [])

/-- FIFO.WRITE (R144), with its checks in the order of R141 and 60_exceptions.md R255. -/
def execFifoWrite (f : FifoSel) (count : Word) (timestamp : Timestamp) (data : List Sample) (s : State) : Result :=
  let F := s.fifo f
  let C := s.capacity f
  let n := signedWord count
  let t := signedTimestamp timestamp
  if F.isOpen = false then .next (s.raise .closed)
  else if n < 0 ∨ n > C then .next (s.raise .invalidArg)
  else if t + n > maxTimestamp then .next (s.raise .invalidArg)
  else if t < writeO F t then .next (s.raise .stale)
  else
    .next ((((s.emitDiagIf (flagOvw F n t) .overwrite).emitDiagIf (flagOvf F C n t) .overflow).setFifo f
      (F.written C n t data)).respond .ok (writeFlags F C n t) n [] [])

/-- FIFO.READ (R153), with its checks in the order of R141 and 60_exceptions.md R255. -/
def execFifoRead (f : FifoSel) (maxCount : Word) (timestamp : Timestamp) (s : State) : Result :=
  let F := s.fifo f
  let C := s.capacity f
  let m := signedWord maxCount
  let t := signedTimestamp timestamp
  if F.isOpen = false then .next (s.raise .closed)
  else if m < 0 then .next (s.raise .invalidArg)
  else if t < F.origin.toInt then .next (s.raise .past)
  else if t ≥ F.endTime then .next (s.respond .ok 0#8 0 [] [])
  else
    .next (({ s with draws := s.draws + 1 }.setFifo f (F.consumed m t)).respond .ok 0#8 (readCount F m t) []
      (readSpan s.cfg s.draws F C m t))

/-- FIFO.STATUS (R158): `R2 = open`, `R3`, `R4 = origin`, `R5 = length`, `R6 = wcur`, `R7 = capacity`. -/
def execFifoStatus (f : FifoSel) (s : State) : Result :=
  let F := s.fifo f
  .next (s.respond .ok 0#8 0
    [(BitVec.ofBool F.isOpen).zeroExtend 32, highWord F.origin, lowWord F.origin, F.length, F.wcur,
      BitVec.ofNat 32 (s.capacity f)] [])

end Sys2Proof.Machine
end

