-- ==== Sys2Proof/Machine/FrameClock.lean ====
section
/-! DEFINITION. The frame-clock and availability operations (41_frameclock.md). They never touch a FIFO (R170). -/

namespace Sys2Proof.Machine

open Sys2Proof

/-- `(v + CLOCK_ADVANCE) mod M`: the exact sum, or, under `FRAME_SUM_WRAPS`, the sum reduced mod 2^32 first (R171). -/
def heartbeatFrame (c : Config) (v : Nat) : Nat :=
  (if c.frameSumWraps then (v + c.clockAdvance) % 2 ^ 32 else v + c.clockAdvance) % c.frameModulus

/-- `(currentFrame + ADVANCE_STEP) mod M` (R171, R175). -/
def advanceFrame (c : Config) (v : Nat) : Nat := (v + c.advanceStep) % c.frameModulus

/-- The code of the session state that the two bits make (10_state.md R38). -/
def State.sessionCode (s : State) : Nat :=
  match s.available, s.setupComplete with
  | false, false => 0
  | true, false => 1
  | true, true => 2
  | false, true => 3

/-- One clock indication `v`, shared by CLK.HEARTBEAT and RX.CLOCK (R172 to R174). -/
def heartbeat (v : Word) (s : State) : State :=
  let cur := BitVec.ofNat 32 (heartbeatFrame s.cfg (unsignedWord v))
  let clocked := { s with trxFrame := v, currentFrame := cur }
  let moved :=
    if s.setupComplete then clocked.emitUp (.frameInd cur)
    else { clocked.emit (setupOutputs s.cfg) with available := true, setupComplete := true }
  moved.respond .ok 0#8 cur.toInt [] []

/-- CLK.HEARTBEAT (R172). -/
def execClkHeartbeat (clock : Word) (s : State) : Result := .next (heartbeat clock s)

/-- CLK.ADVANCE (R175). -/
def execClkAdvance (s : State) : Result :=
  let cur := BitVec.ofNat 32 (advanceFrame s.cfg (unsignedWord s.currentFrame))
  .next ({ s with currentFrame := cur }.respond .ok 0#8 cur.toInt [] [])

/-- CLK.TIMEOUT (R176). -/
def execClkTimeout (s : State) : Result :=
  let lost := { s with available := false, setupComplete := false }
  .next (((lost.emitTrx .control (encCmdBytes .powerOff 0#32 0#32)).emitDiag .heartbeatLost).respond .ok 0#8 0 [] [])

/-- CLK.STATUS (R178): `R2 = state code`, `R3 = available`, `R4 = setupComplete`, `R5 = trxFrame`, `R6 = currentFrame`. -/
def execClkStatus (s : State) : Result :=
  .next (s.respond .ok 0#8 0
    [BitVec.ofNat 32 s.sessionCode, (BitVec.ofBool s.available).zeroExtend 32, (BitVec.ofBool s.setupComplete).zeroExtend 32,
      s.trxFrame, s.currentFrame] [])

end Sys2Proof.Machine
end

