-- ==== Sys2Proof/Machine/Session.lean ====
section
/-! DEFINITION. The session send and receive paths (43_session.md). They never touch a FIFO (R220). -/

namespace Sys2Proof.Machine

open Sys2Proof

/-- SESS.SENDCMD (R222, R223). -/
def execSessSendCmd (k : Command) (a1 a2 : Word) (s : State) : Result :=
  if s.available = false ∧ k ≠ .powerOff then .next ((s.emitDiag .refusedCmd).raise .refused)
  else
    let b := encCmdBytes k a1 a2
    .next ((s.emitTrx .control b).respond .ok 0#8 b.length [] [])

/-- SESS.SENDBURST (R224), the timeslot checked before availability (R225). -/
def execSessSendBurst (ts gain : Byte) (fn : Word) (bits : List Byte) (s : State) : Result :=
  if timeslotOk ts = false then .next (s.raise .invalidArg)
  else if s.available = false then .next ((s.emitDiag .refusedBurst).raise .refused)
  else .next ((s.emitTrx .data (encDlBytes ts fn gain bits)).respond .ok 0#8 dataSendSize [] [])

/-- RX.CLOCK (R228, R229). -/
def execRxClock (d : List Byte) (s : State) : Result :=
  match decClockValue s.cfg d with
  | none => .next ((s.emitDiag .dropMalformed).raise .dropMalformed)
  | some v => .next (heartbeat v s)

/-- RX.CTRL (R231): any bytes, no effect on state (R230). -/
def execRxCtrl (_d : List Byte) (s : State) : Result :=
  .next ((s.emitDiag .ctrlResponse).respond .ok 0#8 0 [] [])

/-- The diagnostic of a dropped uplink datagram (60_exceptions.md R259). -/
def uplinkDiag (st : Status) : DiagCode := if st = .dropTimeslot then .dropTimeslot else .dropLength

/-- RX.DATA (R234), in every session state (R232). -/
def execRxData (d : List Byte) (s : State) : Result :=
  match decodeUplink d with
  | .error st => .next ((s.emitDiag (uplinkDiag st)).raise st)
  | .ok u => .next ((s.emitUp (.ulBurst u)).respond .ok 0#8 burstLen [] [])

end Sys2Proof.Machine
end

