-- ==== Sys2Proof/Machine/Dispatch.lean ====
section
/-! DEFINITION. One arm per instruction. -/

namespace Sys2Proof.Machine

open Sys2Proof

def exec (i : Instr) (s : State) : Host.Outcome State Fault Refusal :=
  match i with
  | .fifoOpen f => Sys2Proof.Machine.execFifoOpen f s
  | .fifoClose f => Sys2Proof.Machine.execFifoClose f s
  | .fifoWrite f n t data => Sys2Proof.Machine.execFifoWrite f n t data s
  | .fifoRead f m t => Sys2Proof.Machine.execFifoRead f m t s
  | .fifoStatus f => Sys2Proof.Machine.execFifoStatus f s
  | .clkHeartbeat v => Sys2Proof.Machine.execClkHeartbeat v s
  | .clkAdvance => Sys2Proof.Machine.execClkAdvance s
  | .clkTimeout => Sys2Proof.Machine.execClkTimeout s
  | .clkStatus => Sys2Proof.Machine.execClkStatus s
  | .encDl ts g fn bits => Sys2Proof.Machine.execEncDl ts g fn bits s
  | .decUl d => Sys2Proof.Machine.execDecUl d s
  | .decClock d => Sys2Proof.Machine.execDecClock d s
  | .encCmd k a b => Sys2Proof.Machine.execEncCmd k a b s
  | .sessSendCmd k a b => Sys2Proof.Machine.execSessSendCmd k a b s
  | .sessSendBurst ts g fn bits => Sys2Proof.Machine.execSessSendBurst ts g fn bits s
  | .rxClock d => Sys2Proof.Machine.execRxClock d s
  | .rxCtrl d => Sys2Proof.Machine.execRxCtrl d s
  | .rxData d => Sys2Proof.Machine.execRxData d s

end Sys2Proof.Machine
end

