-- ==== Sys2Proof/Machine/Step.lean ====
section
/-! DEFINITION. One step: accept the request `REQ` presents and perform it; wait when none is presented. -/

namespace Sys2Proof.Machine

open Sys2Proof

/-- One request taken to its end (20_memory.md R80). A request that is not well formed is answered `ILLEGAL_OP` before every
other status (30_encoding.md R113, R114). With no request presented the block waits (70_reset_and_hazards.md R281). -/
def step (s : State) : Host.Outcome State Fault Refusal :=
  match s.presented with
  | none => .next s
  | some r =>
    match decode s.cfg r with
    | .ok i => exec i s.accept
    | .error _ => refuseIllegal s.accept

/-- `s` with the request of the number `w` presented first, so that the next step performs it (log 11). -/
def State.withFetchWord (s : State) (nbits w : Nat) : State := s.present (requestOfNumber s.cfg nbits w)

end Sys2Proof.Machine
end

