-- ==== Sys2Proof/Safety.lean ====
section
/-! DEFINITION. What the spec says holds between two operations: the invariants of the instances, of the frame-clock unit and of
the ports, and the terms the statements use. -/

namespace Sys2Proof.Machine

open Sys2Proof

/-- The state a step or a meaning answers, if it answers one. -/
def nextOf : Result → Option State
  | .next t => some t
  | .fault _ => none
  | .refused _ => none

/-- Every stored sample stands in a slot below the capacity and has the width of a sample (20_memory.md R70). -/
abbrev Memory.fits (c : Config) (C : Nat) (m : Memory) : Prop := ∀ p ∈ m, p.1 < C ∧ p.2 < 2 ^ c.sampleBits

/-- Every live sample's slot holds a value (10_state.md R36). -/
abbrev Fifo.live (C : Nat) (F : Fifo) : Prop :=
  ∀ k < F.length.toNat, (Memory.read F.store (F.slot C (F.origin.toInt + k))).isSome = true

/-- A closed instance has its closed values (40_fifo.md R143, 70_reset_and_hazards.md R280). -/
abbrev Fifo.closedEmpty (F : Fifo) : Prop := F.isOpen = false → F = emptyFifo false

/-- The invariant of an instance of capacity `C` after every operation (10_state.md R33, R34, R36; 40_fifo.md R159 item 5). -/
abbrev Fifo.Inv (c : Config) (C : Nat) (F : Fifo) : Prop :=
  F.length.toNat ≤ C ∧ F.wcur.toNat < C ∧ F.endTime ≤ maxTimestamp ∧ Memory.wf F.store ∧ Memory.fits c C F.store ∧
  Fifo.live C F ∧ Fifo.closedEmpty F

/-- The invariant of the frame-clock unit between operations: Unavailable or Operational (10_state.md R38, R39), and
`currentFrame` below the modulus (R40). -/
abbrev ClockInv (s : State) : Prop := s.currentFrame.toNat < s.cfg.frameModulus ∧ s.available = s.setupComplete

/-- A response as 30_encoding.md R106, R107 and R109 allow it: a failed operation has flags 0, value `-code`, no extra words and no
payload; a successful one has a value that is not negative. -/
abbrev ResponseOk (r : Response) : Prop :=
  if r.status = .ok then 0 ≤ r.value.toInt
  else r.flags = 0#8 ∧ r.value.toInt = -(r.status.code : Int) ∧ r.extra = [] ∧ r.payload = []

/-- What may stand on an output port. A TRX datagram on DATA has `DATA_SEND_SIZE` bytes and a valid timeslot (00_scope.md R9, R12;
43_session.md R225), an uplink event is a burst with a valid timeslot and `BURST_LEN` soft values (10_state.md R46), a frame
indication is below the modulus (R40), and a response is as `ResponseOk` says. -/
def outputOk (c : Config) : Output → Bool
  | .trx .control _ => true
  | .trx .data d => decide (d.length = dataSendSize ∧ (byteAt d 0).toNat < numTimeslots)
  | .up (.ulBurst u) => decide (u.timeslot.toNat < numTimeslots ∧ u.soft.length = burstLen)
  | .up (.frameInd f) => decide (f.toNat < c.frameModulus)
  | .diag _ => true
  | .rsp r => decide (ResponseOk r)

/-- The invariant of the block between two operations. -/
abbrev Inv (s : State) : Prop :=
  s.cfg.wf ∧ Fifo.Inv s.cfg s.cfg.capRx s.rx ∧ Fifo.Inv s.cfg s.cfg.capTx s.tx ∧ ClockInv s ∧
  ∀ o ∈ s.out, outputOk s.cfg o = true

/-- An output that is a response. -/
def isRsp : Output → Bool
  | .rsp _ => true
  | .trx _ _ => false
  | .up _ => false
  | .diag _ => false

/-- An output that is a diagnostic. -/
def isDiag : Output → Bool
  | .diag _ => true
  | .trx _ _ => false
  | .up _ => false
  | .rsp _ => false

/-- The response of a successful operation with flags 0. -/
def okRsp (value : Int) (extra : List Word) (payload : List Nat) : Output :=
  .rsp ⟨.ok, 0#8, BitVec.ofInt 32 value, extra, payload⟩

/-- The response of a failed operation (30_encoding.md R109). -/
def failRsp (st : Status) : Output := .rsp ⟨st, 0#8, BitVec.ofInt 32 (-(st.code : Int)), [], []⟩

/-- `s` with outputs appended and nothing else changed. -/
abbrev State.after (s : State) (os : List Output) : State := { s with out := s.out ++ os }

/-- The instance a FIFO operation acts on (40_fifo.md R140); the other operations act on none. -/
def instrFifo : Instr → Option FifoSel
  | .fifoOpen f => some f
  | .fifoClose f => some f
  | .fifoWrite f _ _ _ => some f
  | .fifoRead f _ _ => some f
  | .fifoStatus f => some f
  | .clkHeartbeat _ => none
  | .clkAdvance => none
  | .clkTimeout => none
  | .clkStatus => none
  | .encDl _ _ _ _ => none
  | .decUl _ => none
  | .decClock _ => none
  | .encCmd _ _ _ => none
  | .sessSendCmd _ _ _ => none
  | .sessSendBurst _ _ _ _ => none
  | .rxClock _ => none
  | .rxCtrl _ => none
  | .rxData _ => none

/-- The request is a codec operation (42_codec.md). -/
def isCodec : Instr → Bool
  | .encDl _ _ _ _ => true
  | .decUl _ => true
  | .decClock _ => true
  | .encCmd _ _ _ => true
  | .fifoOpen _ => false
  | .fifoClose _ => false
  | .fifoWrite _ _ _ _ => false
  | .fifoRead _ _ _ => false
  | .fifoStatus _ => false
  | .clkHeartbeat _ => false
  | .clkAdvance => false
  | .clkTimeout => false
  | .clkStatus => false
  | .sessSendCmd _ _ _ => false
  | .sessSendBurst _ _ _ _ => false
  | .rxClock _ => false
  | .rxCtrl _ => false
  | .rxData _ => false

/-- The request carries the clock value `v` to the frame-clock unit: CLK.HEARTBEAT, or RX.CLOCK with well-formed text. -/
def carriesClock (c : Config) (i : Instr) (v : Word) : Prop :=
  i = .clkHeartbeat v ∨ ∃ d, i = .rxClock d ∧ decClockValue c d = some v

/-- The clock texts that stand for `v` (42_codec.md R199 to R201), said without the parser: `"IND CLOCK "`, one or more digits whose
value is `v`, and then nothing or a 0x00 with anything after it (under `STRICT_CLOCK_TEXT`: exactly one 0x00). -/
def ClockGrammar (c : Config) (d : List Byte) (v : Word) : Prop :=
  ∃ ds tail : List Byte, d = ascii "IND CLOCK ".toList ++ ds ++ tail ∧ ds ≠ [] ∧
    (∀ b ∈ ds, 0x30 ≤ b.toNat ∧ b.toNat ≤ 0x39) ∧ decimalValue ds = v.toNat ∧
    (if c.strictClockText then tail = [0#8] else tail = [] ∨ tail.head? = some 0#8)

/-- The decimal texts of an argument (42_codec.md R204), said without the formatter: `-` first if it is negative, then digits whose
value is the magnitude, with no leading zero. -/
def DecimalText (a : Int) (text : List Byte) : Prop :=
  ∃ ds : List Byte, text = (if a < 0 then [0x2D#8] else []) ++ ds ∧ ds ≠ [] ∧
    (∀ b ∈ ds, 0x30 ≤ b.toNat ∧ b.toNat ≤ 0x39) ∧ decimalValue ds = a.natAbs ∧ (ds.head? = some 0x30#8 → ds = [0x30#8])

/-- The other instance. -/
def otherFifo : FifoSel → FifoSel
  | .rx => .tx
  | .tx => .rx

end Sys2Proof.Machine
end

