-- ==== Sys2Proof/Certificates/Slice0/Obligations.lean ====
section
/-! DEFINITION. The statements for the provers, each with the rule of spec/ it comes from. -/

open Sys2Proof Sys2Proof.Machine

/-! ## Encoding -/

/-- Every well-formed request, encoded and decoded, is itself: no operand, header field or payload item is dropped
(30_encoding.md R101 to R105, R110 to R112). -/
def Obligations.DecodeOfEncodeGivesTheInstruction : Prop :=
  ∀ (c : Config) (i : Instr), WellFormed c i = true → decode c (encode i) = .ok i

/-- Every request that decodes is a well-formed instruction and the only request of that instruction (30_encoding.md R104, R113). -/
def Obligations.DecodedRequestIsWellFormedAndReencodes : Prop :=
  ∀ (c : Config) (r : Request) (i : Instr), decode c r = .ok i → WellFormed c i = true ∧ encode i = r

/-- A header matches a row of spec/opcode_table.json exactly when the decoder reads that row's opcode from it and finds its reserved
fields and its selector legal (for the command formats, whose row leaves `A` free, the command id is checked apart). -/
def Obligations.TableRowIsTheDecodersHeader : Prop :=
  ∀ (h : Word) (o : Opcode),
    h &&& rowMask o = rowMatch o ↔
      (opcodeOfByte (headerOp h) = some o ∧ headerZ h = 0#8 ∧ (o.format = .burst ∨ headerB h = 0#8) ∧
        (o.format = .cmd ∨ aLegal o (headerA h) = true))

/-- The six worked encodings of 30_encoding.md R117 decode to the requests they stand for. -/
def Obligations.WorkedEncodingsDecode : Prop :=
  (∀ (c : Config) (w x y z : Sample), (∀ v ∈ [w, x, y, z], v < 2 ^ c.sampleBits) →
    decode c ⟨[0x12010000#32, 0x00000004#32, 0x00000000#32, 0x00000064#32], [w, x, y, z]⟩ =
      .ok (.fifoWrite .tx 4#32 100#64 [w, x, y, z])) ∧
  (∀ c : Config, decode c ⟨[0x13000000#32, 0x00000008#32, 0xFFFFFFFF#32, 0xFFFFFFFF#32], []⟩ =
    .ok (.fifoRead .rx 8#32 (BitVec.ofInt 64 (-1)))) ∧
  (∀ c : Config, decode c ⟨[0x20000000#32, 0x00000064#32], []⟩ = .ok (.clkHeartbeat 100#32)) ∧
  (∀ (c : Config) (bits : List Byte), bits.length = 148 →
    decode c ⟨[0x4102FD00#32, 0x0001E240#32], bits.map BitVec.toNat⟩ =
      .ok (.sessSendBurst 2#8 (BitVec.ofInt 8 (-3)) 123456#32 bits)) ∧
  (∀ c : Config, decode c ⟨[0x33080000#32, 0x00000003#32, 0x00000007#32], []⟩ = .ok (.encCmd .setSlot 3#32 7#32)) ∧
  (∀ (c : Config) (d : List Byte), d.length = 158 →
    decode c ⟨[0x44000000#32, 0x0000009E#32], d.map BitVec.toNat⟩ = .ok (.rxData d))

/-- The command ids of the command formats, and that every other id is refused (30_encoding.md R112, R113). -/
def Obligations.CommandIdsAreThoseOfTheTable : Prop :=
  ∀ (c : Config) (a b : Word),
    (∀ p ∈ [(0x33000000#32, Command.powerOff), (0x33010000#32, .rxTune), (0x33020000#32, .txTune), (0x33030000#32, .setTsc),
        (0x33040000#32, .setBsic), (0x33050000#32, .powerOn), (0x33060000#32, .setRxGain), (0x33070000#32, .setPower),
        (0x33080000#32, .setSlot)],
      decode c ⟨[p.1, a, b], []⟩ = .ok (.encCmd p.2 a b) ∧
      decode c ⟨[p.1 + 0x0D000000#32, a, b], []⟩ = .ok (.sessSendCmd p.2 a b)) ∧
    (∀ id : Byte, 8 < id.toNat →
      decode c ⟨[(0x33#8 ++ id ++ 0x0000#16 : BitVec 32), a, b], []⟩ = .error .aLegal ∧
      decode c ⟨[(0x40#8 ++ id ++ 0x0000#16 : BitVec 32), a, b], []⟩ = .error .aLegal)

/-- A request that fails one of the six named checks of 30_encoding.md R113 is answered `ILLEGAL_OP` and changes nothing else; a
request that passes all six decodes, given the operand words of its format and items of their width (log 9). -/
def Obligations.MalformedRequestIsAnsweredIllegalOp : Prop :=
  ∀ (s : State) (h : Word) (ws : List Word) (items : List Nat) (rest : List Request),
    s.req = ⟨h :: ws, items⟩ :: rest →
    (((∀ o : Opcode, o.byte ≠ headerOp h) ∨ headerZ h ≠ 0#8 ∨
      (∃ o : Opcode, o.byte = headerOp h ∧
        ((o.format ≠ .burst ∧ headerB h ≠ 0#8) ∨
         (o ∈ [Opcode.fifoOpen, .fifoClose, .fifoStatus, .fifoWrite, .fifoRead] ∧ headerA h ≠ 0#8 ∧ headerA h ≠ 1#8) ∨
         (o ∈ [Opcode.clkAdvance, .clkTimeout, .clkStatus, .clkHeartbeat] ∧ headerA h ≠ 0#8) ∨
         (o.format = .dg ∧ headerA h ≠ 0#8) ∨ (o.format = .cmd ∧ 8 < (headerA h).toNat) ∨
         items.length ≠ payloadLength o ws ∨ (o.format = .dg ∧ maxDgram < (operandWord ws 0).toNat)))) →
      step s = .next { s with req := rest, out := s.out ++ [failRsp .illegalOp] }) ∧
    (∀ o : Opcode, o.byte = headerOp h → headerZ h = 0#8 → (o.format = .burst ∨ headerB h = 0#8) →
      (o ∈ [Opcode.fifoOpen, .fifoClose, .fifoStatus, .fifoWrite, .fifoRead] → headerA h = 0#8 ∨ headerA h = 1#8) →
      (o ∈ [Opcode.clkAdvance, .clkTimeout, .clkStatus, .clkHeartbeat] → headerA h = 0#8) →
      (o.format = .dg → headerA h = 0#8) → (o.format = .cmd → (headerA h).toNat ≤ 8) →
      items.length = payloadLength o ws → (o.format = .dg → (operandWord ws 0).toNat ≤ maxDgram) →
      ws.length = o.format.operandWords → (∀ x ∈ items, x < 2 ^ itemBits s.cfg o) →
      ∃ i : Instr, i.opcode = o ∧ decode s.cfg ⟨h :: ws, items⟩ = .ok i)

/-! ## The step and the whole block -/

/-- When the request presented decodes to `i`, a step is `exec` of `i` after the request is taken from the port, and nothing else. -/
def Obligations.StepPerformsTheDecodedRequest : Prop :=
  ∀ (s : State) (r : Request) (rest : List Request) (i : Instr),
    s.req = r :: rest → decode s.cfg r = .ok i → step s = exec i { s with req := rest }

/-- With no request presented the block waits. The idle step is the model's form of it (log 5). -/
def Obligations.BlockWaitsForARequest : Prop :=
  ∀ s : State, s.req = [] → step s = .next s

/-- Every request, well formed or not and in every state, is answered: the block never stops, its outputs are appended and never
withdrawn, and there is exactly one response, the last output (10_state.md R47; 30_encoding.md R106; 43_session.md R227;
60_exceptions.md R250, R252, R258). -/
def Obligations.EveryRequestGetsExactlyOneResponseLast : Prop :=
  ∀ (s : State) (r : Request) (rest : List Request), s.req = r :: rest →
    ∃ t evs resp, step s = .next t ∧ t.req = rest ∧ t.out = s.out ++ evs ++ [.rsp resp] ∧ ∀ o ∈ evs, isRsp o = false

/-- An operation that does not respond OK changes no state and emits at most one diagnostic besides its response, which carries
flags 0, no extra words and no payload (00_scope.md R22; 30_encoding.md R106; 60_exceptions.md R250, R254). -/
def Obligations.FailedOperationChangesNothing : Prop :=
  ∀ (s t : State) (r : Request) (rest : List Request) (evs : List Output) (resp : Response),
    s.req = r :: rest → step s = .next t → t.out = s.out ++ evs ++ [.rsp resp] → resp.status ≠ .ok →
      t = { s with req := rest, out := t.out } ∧ evs.length ≤ 1 ∧ (∀ o ∈ evs, isDiag o = true) ∧
      resp.flags = 0#8 ∧ resp.extra = [] ∧ resp.payload = []

/-- `value < 0` exactly when the operation failed, and then it is minus the number of the status (30_encoding.md R109). -/
def Obligations.NegativeValueExactlyOnFailure : Prop :=
  ∀ (s t : State) (r : Request) (rest : List Request) (evs : List Output) (resp : Response),
    s.cfg.wf → s.req = r :: rest → step s = .next t → t.out = s.out ++ evs ++ [.rsp resp] →
      (resp.value.toInt < 0 ↔ resp.status ≠ .ok) ∧
      (resp.status = .invalidArg → resp.value.toInt = -1) ∧ (resp.status = .stale → resp.value.toInt = -2) ∧
      (resp.status = .past → resp.value.toInt = -3) ∧ (resp.status = .refused → resp.value.toInt = -4) ∧
      (resp.status = .dropLength → resp.value.toInt = -5) ∧ (resp.status = .dropTimeslot → resp.value.toInt = -6) ∧
      (resp.status = .dropMalformed → resp.value.toInt = -7) ∧ (resp.status = .illegalOp → resp.value.toInt = -8) ∧
      (resp.status = .closed → resp.value.toInt = -9)

/-- No operation but FIFO.WRITE sets a response flag, and bits 7..3 are always 0 (30_encoding.md R107). -/
def Obligations.OnlyFifoWriteSetsFlags : Prop :=
  ∀ (i : Instr) (s t : State) (evs : List Output) (resp : Response),
    exec i s = .next t → t.out = s.out ++ evs ++ [.rsp resp] →
      resp.flags.toNat < 8 ∧
      ((∀ f n ts data, i ≠ .fifoWrite f n ts data) ∨ resp.status ≠ .ok → resp.flags = 0#8)

/-- Which statuses besides OK each operation can respond with (60_exceptions.md R253, R255). -/
def Obligations.StatusesOfEachOperation : Prop :=
  ∀ (i : Instr) (s t : State) (evs : List Output) (resp : Response),
    exec i s = .next t → t.out = s.out ++ evs ++ [.rsp resp] → resp.status ≠ .ok →
      resp.status ∈ (match i.opcode with
        | .fifoWrite => [Status.closed, .invalidArg, .stale]
        | .fifoRead => [.closed, .invalidArg, .past]
        | .encDl => [.invalidArg]
        | .sessSendBurst => [.invalidArg, .refused]
        | .sessSendCmd => [.refused]
        | .decUl => [.dropLength, .dropTimeslot]
        | .rxData => [.dropLength, .dropTimeslot]
        | .decClock => [.dropMalformed]
        | .rxClock => [.dropMalformed]
        | .fifoOpen | .fifoClose | .fifoStatus | .clkHeartbeat | .clkAdvance | .clkTimeout | .clkStatus | .encCmd | .rxCtrl => [])

/-- Which operation each output besides the response comes from: the CONTROL datagrams and `FRAME_IND` (41_frameclock.md R170, R172,
R176; 43_session.md R222, R228), the DATA datagrams (43_session.md R224), the `UP` events (10_state.md R46), the diagnostics
(60_exceptions.md R259); no FIFO operation emits a datagram or an event (40_fifo.md R140 and its pseudocode), and the codec
operations emit nothing but the response (42_codec.md R190). -/
def Obligations.OutputsOfEachOperation : Prop :=
  ∀ (i : Instr) (s t : State) (evs : List Output),
    exec i s = .next t → t.out = s.out ++ evs → ∀ o ∈ evs,
      match o with
      | .rsp _ => True
      | .trx .control _ => i.opcode ∈ [Opcode.clkHeartbeat, .rxClock, .clkTimeout, .sessSendCmd]
      | .trx .data _ => i.opcode = .sessSendBurst
      | .up (.frameInd _) => i.opcode ∈ [Opcode.clkHeartbeat, .rxClock]
      | .up (.ulBurst _) => i.opcode = .rxData
      | .diag .overwrite => i.opcode = .fifoWrite
      | .diag .overflow => i.opcode = .fifoWrite
      | .diag .refusedCmd => i.opcode = .sessSendCmd
      | .diag .refusedBurst => i.opcode = .sessSendBurst
      | .diag .dropLength => i.opcode = .rxData
      | .diag .dropTimeslot => i.opcode = .rxData
      | .diag .dropMalformed => i.opcode = .rxClock
      | .diag .heartbeatLost => i.opcode = .clkTimeout
      | .diag .ctrlResponse => i.opcode = .rxCtrl

/-- The words of a response, the numbers of the statuses and the numbers of the diagnostic events (30_encoding.md R106, R108;
60_exceptions.md R259). -/
def Obligations.ResponseWordsAndCodes : Prop :=
  (∀ r : Response, r.words =
    ((BitVec.ofNat 8 r.status.code ++ r.flags ++ 0#16 : BitVec 32) :: r.value :: r.extra)) ∧
  [Status.ok, .invalidArg, .stale, .past, .refused, .dropLength, .dropTimeslot, .dropMalformed, .illegalOp, .closed].map Status.code
    = [0, 1, 2, 3, 4, 5, 6, 7, 8, 9] ∧
  [DiagCode.overwrite, .overflow, .refusedCmd, .refusedBurst, .dropLength, .dropTimeslot, .dropMalformed, .heartbeatLost,
    .ctrlResponse].map DiagCode.code = [1#8, 2#8, 3#8, 4#8, 5#8, 6#8, 7#8, 8#8, 9#8]

/-- What has been emitted is never read back: a step with more history does the same and leaves that history in place
(10_state.md R44, R50; 43_session.md R221; 60_exceptions.md R259). -/
def Obligations.OutputHistoryIsNeverReadBack : Prop :=
  ∀ (s t : State) (hist : List Output), step s = .next t →
    step { s with out := hist ++ s.out } = .next { t with out := hist ++ t.out }

/-- The invariant of the block is kept by every step from every state that meets it: window and cursor in range, the storage in its
canonical form with every live slot holding a value, a closed instance empty, `currentFrame` below the modulus, the session
Unavailable or Operational, and every output as the spec forms it (10_state.md R34, R36, R38, R39, R40; 40_fifo.md R146, R159). -/
def Obligations.StepKeepsTheInvariant : Prop :=
  ∀ s t : State, Inv s → step s = .next t → Inv t

/-- The state after reset meets the invariant, under every legal configuration (70_reset_and_hazards.md R280). -/
def Obligations.ResetMeetsTheInvariant : Prop :=
  Inv State.reset ∧ ∀ c : Config, c.wf → Inv (State.resetWith c)

/-- The reset state, field by field, under every configuration (70_reset_and_hazards.md R280). -/
def Obligations.ResetStateIsTheSpecs : Prop :=
  ∀ (c : Config) (f : FifoSel), let s := State.resetWith c
    (s.fifo f).isOpen = false ∧ (s.fifo f).origin = 0#64 ∧ (s.fifo f).length = 0#32 ∧ (s.fifo f).wcur = 0#32 ∧
    (∀ a : Nat, Memory.read (s.fifo f).store a = none) ∧
    s.available = false ∧ s.setupComplete = false ∧ s.trxFrame = 0#32 ∧ s.currentFrame = 0#32 ∧ s.sessionCode = 0 ∧
    s.cfg = c ∧ s.req = [] ∧ s.out = []

/-! ## Sample FIFO -/

/-- A FIFO operation reads and writes no state of the other instance or of the frame-clock unit (40_fifo.md R140): whatever stands
there stays there and makes no difference to the rest. -/
def Obligations.FifoOperationActsOnOneInstance : Prop :=
  ∀ (i : Instr) (f : FifoSel) (s t : State) (G : Fifo) (av su : Bool) (tf cf : Word),
    instrFifo i = some f → exec i s = .next t →
      t.fifo (otherFifo f) = s.fifo (otherFifo f) ∧ t.cfg = s.cfg ∧ t.req = s.req ∧
      t.available = s.available ∧ t.setupComplete = s.setupComplete ∧ t.trxFrame = s.trxFrame ∧
      t.currentFrame = s.currentFrame ∧
      exec i { s.setFifo (otherFifo f) G with available := av, setupComplete := su, trxFrame := tf, currentFrame := cf } =
        .next { t.setFifo (otherFifo f) G with available := av, setupComplete := su, trxFrame := tf, currentFrame := cf }

/-- No frame-clock, codec or session operation reads or writes a FIFO (41_frameclock.md R170; 42_codec.md R190; 43_session.md R220). -/
def Obligations.OtherOperationsNeverTouchAFifo : Prop :=
  ∀ (i : Instr) (s t : State) (G H : Fifo), instrFifo i = none → exec i s = .next t →
    t.rx = s.rx ∧ t.tx = s.tx ∧ t.cfg = s.cfg ∧ t.req = s.req ∧ t.draws = s.draws ∧
    exec i { s with rx := G, tx := H } = .next { t with rx := G, tx := H }

/-- FIFO.OPEN makes the instance open and empty and changes nothing else (40_fifo.md R142). -/
def Obligations.FifoOpenEmptiesTheInstance : Prop :=
  ∀ (f : FifoSel) (s : State),
    encode (.fifoOpen f) = ⟨[match f with | .rx => 0x10000000#32 | .tx => 0x10010000#32], []⟩ ∧
    exec (.fifoOpen f) s = .next ((s.setFifo f ⟨true, 0#64, 0#32, 0#32, []⟩).after [okRsp 0 [] []])

/-- FIFO.CLOSE makes the instance closed and empty and changes nothing else; FIFO.WRITE and FIFO.READ on it then raise `CLOSED`
(40_fifo.md R143). -/
def Obligations.FifoCloseDestroysTheInstance : Prop :=
  ∀ (f : FifoSel) (s : State),
    encode (.fifoClose f) = ⟨[match f with | .rx => 0x11000000#32 | .tx => 0x11010000#32], []⟩ ∧
    exec (.fifoClose f) s = .next ((s.setFifo f ⟨false, 0#64, 0#32, 0#32, []⟩).after [okRsp 0 [] []]) ∧
    ((s.fifo f).isOpen = false →
      (∀ n ts data, exec (.fifoWrite f n ts data) s = .next (s.after [failRsp .closed])) ∧
      (∀ m ts, exec (.fifoRead f m ts) s = .next (s.after [failRsp .closed])))

/-- FIFO.STATUS reports the instance's state and changes none (40_fifo.md R158). -/
def Obligations.FifoStatusReportsTheInstance : Prop :=
  ∀ (f : FifoSel) (s : State), ∃ r3 r4 : Word,
    encode (.fifoStatus f) = ⟨[match f with | .rx => 0x14000000#32 | .tx => 0x14010000#32], []⟩ ∧
    exec (.fifoStatus f) s = .next (s.after [okRsp 0
      [if (s.fifo f).isOpen then 1#32 else 0#32, r3, r4, (s.fifo f).length, (s.fifo f).wcur,
        BitVec.ofNat 32 (match f with | .rx => s.cfg.capRx | .tx => s.cfg.capTx)] []]) ∧
    r3.toNat * 2 ^ 32 + r4.toNat = (s.fifo f).origin.toNat

/-- The checks of FIFO.WRITE in their order: closed, count, timestamp range, stale; a request that passes them all is done
(40_fifo.md R141, R145, R146, R150; 60_exceptions.md R255). -/
def Obligations.FifoWriteChecksInOrder : Prop :=
  ∀ (f : FifoSel) (count : Word) (ts : Timestamp) (data : List Sample) (s : State),
    let F := s.fifo f
    let C : Int := s.capacity f
    let n := count.toInt
    let t := ts.toInt
    let answer := exec (.fifoWrite f count ts data) s
    (F.isOpen = false → answer = .next (s.after [failRsp .closed])) ∧
    (F.isOpen = true → (n < 0 ∨ C < n) → answer = .next (s.after [failRsp .invalidArg])) ∧
    (F.isOpen = true → 0 ≤ n → n ≤ C → 2 ^ 63 - 1 < t + n → answer = .next (s.after [failRsp .invalidArg])) ∧
    (F.isOpen = true → 0 ≤ n → n ≤ C → t + n ≤ 2 ^ 63 - 1 → F.length ≠ 0#32 → t < F.origin.toInt →
      answer = .next (s.after [failRsp .stale])) ∧
    (F.isOpen = true → 0 ≤ n → n ≤ C → t + n ≤ 2 ^ 63 - 1 → (F.length = 0#32 ∨ F.origin.toInt ≤ t) →
      ∃ u evs fl, answer = .next u ∧ u.out = s.out ++ evs ++ [.rsp ⟨.ok, fl, count, [], []⟩])

/-- A FIFO.WRITE that passes its checks: the new window, cursor, flags, diagnostics and value, and nothing else of the state
(40_fifo.md R144, R148, R149, R151, R152). -/
def Obligations.FifoWriteMovesTheWindow : Prop :=
  ∀ (f : FifoSel) (count : Word) (ts : Timestamp) (data : List Sample) (s : State),
    let F := s.fifo f
    let C : Nat := s.capacity f
    let n := count.toInt
    let t := ts.toInt
    let O : Int := if F.length = 0#32 then t else F.origin.toInt
    let E : Int := O + F.length.toNat
    let E2 : Int := max E (t + n)
    let O2 : Int := max O (E2 - C)
    s.cfg.wf → Fifo.Inv s.cfg C F → F.isOpen = true → 0 ≤ n → n ≤ C → t + n ≤ maxTimestamp → O ≤ t →
      ∃ (G : Fifo) (fl : Byte),
        exec (.fifoWrite f count ts data) s =
          .next ((s.setFifo f G).after
            ((if 0 < n ∧ t < E then [.diag .overwrite] else []) ++ (if O < O2 then [.diag .overflow] else []) ++
              [.rsp ⟨.ok, fl, count, [], []⟩])) ∧
        G.isOpen = true ∧ G.origin.toInt = O2 ∧ (G.length.toNat : Int) = E2 - O2 ∧ G.endTime = E2 ∧
        (G.wcur.toNat : Int) = (F.wcur.toNat + (E2 - E)) % C ∧
        fl.getLsbD 0 = decide (O < O2) ∧ fl.getLsbD 1 = decide (0 < n ∧ t < E) ∧ fl.getLsbD 2 = decide (E < t) ∧
        fl.toNat < 8

/-- The content of the window after a FIFO.WRITE with status OK: the data where the write stored it, the old sample where it did not,
zero in the gap; retained samples keep their slots, and no slot is written but those of newly live timestamps and of the data
(40_fifo.md R147). -/
def Obligations.FifoWriteContent : Prop :=
  ∀ (f : FifoSel) (count : Word) (ts : Timestamp) (data : List Sample) (s : State),
    let F := s.fifo f
    let C : Nat := s.capacity f
    let n := count.toInt
    let t := ts.toInt
    let O : Int := if F.length = 0#32 then t else F.origin.toInt
    let E : Int := O + F.length.toNat
    let E2 : Int := max E (t + n)
    let O2 : Int := max O (E2 - C)
    s.cfg.wf → Fifo.Inv s.cfg C F → F.isOpen = true → 0 ≤ n → n ≤ C → t + n ≤ maxTimestamp → O ≤ t →
    (data.length : Int) = n →
      ∃ u, exec (.fifoWrite f count ts data) s = .next u ∧
        (∀ x : Int, O2 ≤ x → x < E2 →
          (t ≤ x → x < t + n → (u.fifo f).sampleAt C x = data[(x - t).toNat]?) ∧
          (x < E → ¬ (t ≤ x ∧ x < t + n) → (u.fifo f).sampleAt C x = F.sampleAt C x) ∧
          (E ≤ x → x < t → (u.fifo f).sampleAt C x = some 0) ∧
          ((u.fifo f).sampleAt C x).isSome = true ∧
          (x < E → (u.fifo f).slot C x = F.slot C x)) ∧
        (∀ a : Nat,
          (∀ x : Int, O2 ≤ x → x < E2 → (E ≤ x ∨ (t ≤ x ∧ x < t + n)) → (u.fifo f).slot C x ≠ a) →
          Memory.read (u.fifo f).store a = Memory.read F.store a)

/-- The storage slots a FIFO.WRITE leaves alone: every slot that is not the slot of a timestamp it makes live or of a sample it stores
(40_fifo.md R144, R147; 20_memory.md R71). -/
def Obligations.FifoWriteLeavesOtherSlots : Prop :=
  ∀ (f : FifoSel) (count : Word) (ts : Timestamp) (data : List Sample) (s u : State) (a : Nat),
    let F := s.fifo f
    let C : Nat := s.capacity f
    let n := count.toInt
    let t := ts.toInt
    (data.length : Int) = n → exec (.fifoWrite f count ts data) s = .next u →
    (∀ x : Int, (writeFirstNew F C n t ≤ x ∧ x < writeE2 F n t) ∨ (t ≤ x ∧ x < t + n) → writeSlot F C n t x ≠ a) →
      Memory.read (u.fifo f).store a = Memory.read F.store a

/-- The checks of FIFO.READ in their order, and the read past the end: closed, maximum count, past, nothing available yet
(40_fifo.md R141, R154, R155, R157; 60_exceptions.md R255). -/
def Obligations.FifoReadChecksInOrder : Prop :=
  ∀ (f : FifoSel) (maxCount : Word) (ts : Timestamp) (s : State),
    let F := s.fifo f
    let m := maxCount.toInt
    let t := ts.toInt
    let answer := exec (.fifoRead f maxCount ts) s
    (F.isOpen = false → answer = .next (s.after [failRsp .closed])) ∧
    (F.isOpen = true → m < 0 → answer = .next (s.after [failRsp .invalidArg])) ∧
    (F.isOpen = true → 0 ≤ m → t < F.origin.toInt → answer = .next (s.after [failRsp .past])) ∧
    (F.isOpen = true → 0 ≤ m → F.origin.toInt ≤ t → F.origin.toInt + F.length.toNat ≤ t →
      answer = .next (s.after [okRsp 0 [] []]))

/-- A FIFO.READ inside the window returns the held samples in timestamp order, never a free value, and consumes everything before
`t + r`; the end and the cursor stay, and so does every sample that remains live (40_fifo.md R153, R156). That the storage stays
(`G.store = F.store`), consumed slots included, is the model's choice of log 14 (DESIGN CHOICE): 10_state.md R36 says a consumed slot
holds no value, and R156 says nothing of the storage. -/
def Obligations.FifoReadConsumes : Prop :=
  ∀ (f : FifoSel) (maxCount : Word) (ts : Timestamp) (s : State),
    let F := s.fifo f
    let C : Nat := s.capacity f
    let m := maxCount.toInt
    let t := ts.toInt
    let E : Int := F.origin.toInt + F.length.toNat
    let r : Int := min m (E - t)
    s.cfg.wf → Fifo.Inv s.cfg C F → F.isOpen = true → 0 ≤ m → F.origin.toInt ≤ t → t < E →
      ∃ (G : Fifo) (dr : Nat) (out : List Sample),
        exec (.fifoRead f maxCount ts) s = .next { s.setFifo f G with draws := dr, out := s.out ++ [okRsp r [] out] } ∧
        (out.length : Int) = r ∧ (∀ i : Nat, (i : Int) < r → F.sampleAt C (t + i) = out[i]?) ∧
        G.isOpen = true ∧ G.origin.toInt = t + r ∧ (G.length.toNat : Int) = E - (t + r) ∧ G.endTime = E ∧
        G.wcur = F.wcur ∧ G.store = F.store ∧
        (∀ x : Int, t + r ≤ x → x < E → G.sampleAt C x = F.sampleAt C x)

/-- A write that responds OK, followed at once by a read at the same timestamp and count, returns exactly the data written
(40_fifo.md R159 item 1). -/
def Obligations.WriteThenReadReturnsTheData : Prop :=
  ∀ (f : FifoSel) (count : Word) (ts : Timestamp) (data : List Sample) (s t : State) (evs : List Output) (resp : Response),
    Inv s → WellFormed s.cfg (.fifoWrite f count ts data) = true →
    exec (.fifoWrite f count ts data) s = .next t → t.out = s.out ++ evs ++ [.rsp resp] → resp.status = .ok →
      ∃ u, exec (.fifoRead f count ts) t = .next u ∧ u.out = t.out ++ [okRsp count.toInt [] data]

/-- A write at or after the end with more samples and gap than there is room leaves the instance exactly full, and every sample written is
held (40_fifo.md R151, R159 item 3). -/
def Obligations.OverflowFillsTheCapacity : Prop :=
  ∀ (f : FifoSel) (count : Word) (ts : Timestamp) (data : List Sample) (s : State),
    let F := s.fifo f
    let C : Nat := s.capacity f
    let n := count.toInt
    let t := ts.toInt
    s.cfg.wf → Fifo.Inv s.cfg C F → F.isOpen = true → F.length ≠ 0#32 → 0 ≤ n → n ≤ C → t + n ≤ maxTimestamp →
    F.endTime ≤ t → (C : Int) - F.length.toNat < (t - F.endTime) + n → (data.length : Int) = n →
      ∃ u, exec (.fifoWrite f count ts data) s = .next u ∧ (u.fifo f).length.toNat = C ∧ (u.fifo f).endTime = t + n ∧
        ∀ i : Nat, (i : Int) < n → (u.fifo f).sampleAt C (t + i) = data[i]?

/-! ## Frame clock -/

/-- CLK.HEARTBEAT in every state: the clock values are taken; the heartbeat that leaves Unavailable issues the sixteen setup commands in
order and no `FRAME_IND`, every later one a `FRAME_IND` and no command (41_frameclock.md R171 to R174, R181). -/
def Obligations.HeartbeatTakesTheClock : Prop :=
  ∀ (v : Word) (s : State),
    let c := s.cfg
    let sum := if c.frameSumWraps then (v.toNat + c.clockAdvance) % 2 ^ 32 else v.toNat + c.clockAdvance
    let frame := sum % c.frameModulus
    let cmd := fun (k : Command) (a b : Word) => Output.trx .control (encCmdBytes k a b)
    encode (.clkHeartbeat v) = ⟨[0x20000000#32, v], []⟩ ∧
    (s.setupComplete = false → exec (.clkHeartbeat v) s = .next
      { s with
        available := true, setupComplete := true, trxFrame := v, currentFrame := BitVec.ofNat 32 frame,
        out := s.out ++
          [cmd .powerOff 0#32 0#32, cmd .txTune c.txFreqKhz 0#32, cmd .rxTune c.rxFreqKhz 0#32, cmd .setTsc c.tsc 0#32,
            cmd .setBsic c.bsic 0#32, cmd .powerOn 0#32 0#32, cmd .setRxGain c.rxGainDb 0#32, cmd .setPower c.powerDb 0#32,
            cmd .setSlot 0#32 c.slots[0], cmd .setSlot 1#32 c.slots[1], cmd .setSlot 2#32 c.slots[2],
            cmd .setSlot 3#32 c.slots[3], cmd .setSlot 4#32 c.slots[4], cmd .setSlot 5#32 c.slots[5],
            cmd .setSlot 6#32 c.slots[6], cmd .setSlot 7#32 c.slots[7], okRsp frame [] []] }) ∧
    (s.setupComplete = true → exec (.clkHeartbeat v) s = .next
      { s with
        trxFrame := v, currentFrame := BitVec.ofNat 32 frame,
        out := s.out ++ [.up (.frameInd (BitVec.ofNat 32 frame)), okRsp frame [] []] })

/-- CLK.ADVANCE adds `ADVANCE_STEP` modulo `FRAME_MODULUS` in every state and changes nothing else (41_frameclock.md R175). -/
def Obligations.AdvanceStepsTheFrame : Prop :=
  ∀ s : State,
    let frame := (s.currentFrame.toNat + s.cfg.advanceStep) % s.cfg.frameModulus
    encode .clkAdvance = ⟨[0x21000000#32], []⟩ ∧
    exec .clkAdvance s =
      .next { s with currentFrame := BitVec.ofNat 32 frame, out := s.out ++ [okRsp frame [] []] }

/-- `FRAME_MODULUS` CLK.ADVANCE requests in a row return `currentFrame` to its value before them, for every `ADVANCE_STEP`
(41_frameclock.md R180 item 2). -/
def Obligations.ModulusAdvancesReturnTheFrame : Prop :=
  ∀ (s : State) (rest : List Request), s.cfg.wf → s.currentFrame.toNat < s.cfg.frameModulus →
    s.req = List.replicate s.cfg.frameModulus (encode .clkAdvance) ++ rest →
      ∃ t : State, Host.Core.run Sys2Proof.core s.cfg.frameModulus s = .next t ∧ t.currentFrame = s.currentFrame ∧ t.req = rest

/-- CLK.TIMEOUT clears both bits, emits exactly one POWEROFF and the diagnostic, keeps the frames, in every state
(41_frameclock.md R176). -/
def Obligations.TimeoutMakesUnavailable : Prop :=
  ∀ s : State,
    encode .clkTimeout = ⟨[0x22000000#32], []⟩ ∧
    exec .clkTimeout s = .next
      { s with
        available := false, setupComplete := false,
        out := s.out ++
          [.trx .control [0x43#8, 0x4D#8, 0x44#8, 0x20#8, 0x50#8, 0x4F#8, 0x57#8, 0x45#8, 0x52#8, 0x4F#8, 0x46#8, 0x46#8, 0x00#8],
            .diag .heartbeatLost, okRsp 0 [] []] }

/-- CLK.STATUS reports the frame-clock state and changes none (41_frameclock.md R178; 10_state.md R38). -/
def Obligations.ClockStatusReportsTheSession : Prop :=
  ∀ s : State,
    encode .clkStatus = ⟨[0x23000000#32], []⟩ ∧
    exec .clkStatus s = .next (s.after [okRsp 0
      [if s.available then (if s.setupComplete then 2#32 else 1#32) else (if s.setupComplete then 3#32 else 0#32),
        if s.available then 1#32 else 0#32, if s.setupComplete then 1#32 else 0#32, s.trxFrame, s.currentFrame] []]) ∧
    (ClockInv s → s.sessionCode = 0 ∨ s.sessionCode = 2)

/-- Only a heartbeat and a timeout move the session: a heartbeat to Operational, a timeout to Unavailable (41_frameclock.md R179). -/
def Obligations.OnlyHeartbeatAndTimeoutMoveTheSession : Prop :=
  ∀ (i : Instr) (s t : State), exec i s = .next t →
    (t.available ≠ s.available ∨ t.setupComplete ≠ s.setupComplete) →
      (i = .clkTimeout ∧ t.available = false ∧ t.setupComplete = false) ∨
      (∃ v, carriesClock s.cfg i v ∧ s.setupComplete = false ∧ t.available = true ∧ t.setupComplete = true)

/-- The frame counters change only on CLK.HEARTBEAT, RX.CLOCK and CLK.ADVANCE, and CLK.ADVANCE does not change `trxFrame`
(60_exceptions.md R261; 41_frameclock.md R174, R175). -/
def Obligations.FrameCountersMoveOnlyOnClockRequests : Prop :=
  ∀ (i : Instr) (s t : State), exec i s = .next t →
    (t.trxFrame ≠ s.trxFrame → carriesClock s.cfg i t.trxFrame) ∧
    (t.currentFrame ≠ s.currentFrame → (∃ v, carriesClock s.cfg i v ∧ t.trxFrame = v) ∨ i = .clkAdvance)

/-! ## Codec -/

/-- A codec operation is a function of its request (and, for DEC.CLOCK, of the fixed configuration): it reads and writes no state and
its only output is the response (42_codec.md R190; 10_state.md R41). -/
def Obligations.CodecOperationsArePure : Prop :=
  ∀ (i : Instr) (c : Config), isCodec i = true →
    ∃ resp : Response, ∀ s : State, s.cfg = c → exec i s = .next (s.after [.rsp resp])

/-- ENC.DL returns the 154-byte downlink datagram: timeslot, big-endian frame number, gain, payload (42_codec.md R191, R192, R193). -/
def Obligations.EncodeDownlinkLayout : Prop :=
  ∀ (ts gain : Byte) (fn : Word) (bits : List Byte) (s : State), ts.toNat ≤ 7 → bits.length = 148 →
    ∃ p : List Byte, exec (.encDl ts gain fn bits) s = .next (s.after [okRsp 154 [] (itemsOf p)]) ∧ p.length = 154 ∧
      byteAt p 0 = ts ∧ be32 (byteAt p 1) (byteAt p 2) (byteAt p 3) (byteAt p 4) = fn.toNat ∧ byteAt p 5 = gain ∧
      ∀ i < 148, byteAt p (6 + i) = byteAt bits i

/-- A timeslot above 7 is an invalid argument in every session state, for ENC.DL and for SESS.SENDBURST, before anything is emitted
(42_codec.md R191; 43_session.md R225). -/
def Obligations.BadTimeslotIsAnInvalidArgument : Prop :=
  ∀ (ts gain : Byte) (fn : Word) (bits : List Byte) (s : State), 7 < ts.toNat →
    exec (.encDl ts gain fn bits) s = .next (s.after [failRsp .invalidArg]) ∧
    exec (.sessSendBurst ts gain fn bits) s = .next (s.after [failRsp .invalidArg])

/-- The uplink layout: DEC.UL returns, and RX.DATA delivers in every session state, the timeslot, the big-endian frame number, the rssi as
a negated magnitude, the signed time of arrival and the 148 soft values (42_codec.md R194 to R196; 43_session.md R232, R234). -/
def Obligations.UplinkBurstIsDecoded : Prop :=
  ∀ (d : List Byte) (s : State), d.length = 158 → (byteAt d 0).toNat ≤ 7 →
    ∃ u : UlBurst,
      exec (.decUl d) s = .next (s.after [okRsp 148
        [BitVec.ofNat 32 (byteAt d 0).toNat, u.frameNumber, BitVec.ofInt 32 u.rssi.toInt, BitVec.ofInt 32 u.toaRaw.toInt]
        (itemsOf u.soft)]) ∧
      exec (.rxData d) s = .next (s.after [.up (.ulBurst u), okRsp 148 [] []]) ∧
      u.timeslot = byteAt d 0 ∧
      u.frameNumber.toNat = be32 (byteAt d 1) (byteAt d 2) (byteAt d 3) (byteAt d 4) ∧
      u.rssi.toInt = -((byteAt d 5).toNat : Int) ∧
      u.toaRaw.toInt = (be16 (byteAt d 6) (byteAt d 7) : Int) - (if (byteAt d 6).toNat < 128 then 0 else 65536) ∧
      u.soft.length = 148 ∧
      ∀ i < 148, (byteAt u.soft i).toInt = 127 - ((byteAt d (8 + i)).toNat : Int)

/-- A wrong length, then a bad timeslot, drops an uplink datagram: the status alone from DEC.UL, the diagnostic and the status from
RX.DATA, no state change (42_codec.md R197; 43_session.md R233, R234). -/
def Obligations.BadUplinkDatagramIsDropped : Prop :=
  ∀ (d : List Byte) (s : State),
    (d.length ≠ 158 →
      exec (.decUl d) s = .next (s.after [failRsp .dropLength]) ∧
      exec (.rxData d) s = .next (s.after [.diag .dropLength, failRsp .dropLength])) ∧
    (d.length = 158 → 7 < (byteAt d 0).toNat →
      exec (.decUl d) s = .next (s.after [failRsp .dropTimeslot]) ∧
      exec (.rxData d) s = .next (s.after [.diag .dropTimeslot, failRsp .dropTimeslot]))

/-- DEC.CLOCK accepts exactly the clock texts of the grammar, under either reading of `STRICT_CLOCK_TEXT`, and returns their value
(42_codec.md R198 to R201). -/
def Obligations.ClockTextIsParsedByItsGrammar : Prop :=
  ∀ (d : List Byte) (s : State),
    encode (.decClock d) = ⟨[0x32000000#32, BitVec.ofNat 32 d.length], d.map BitVec.toNat⟩ ∧
    (∀ v : Word, ClockGrammar s.cfg d v → exec (.decClock d) s = .next (s.after [okRsp 0 [v] []])) ∧
    ((∀ v : Word, ¬ ClockGrammar s.cfg d v) → exec (.decClock d) s = .next (s.after [failRsp .dropMalformed]))

/-- The text of every command: name, decimal arguments, terminator; ENC.CMD returns it with its length, at most 36
(42_codec.md R202 to R205). -/
def Obligations.CommandTextForm : Prop :=
  ∀ (k : Command) (a b : Word) (s : State), 
    encode (.encCmd k a b) = ⟨[(0x33#8 ++ k.id ++ 0x0000#16 : BitVec 32), a, b], []⟩ ∧ ∃ x y text : List Byte,
    DecimalText a.toInt x ∧ DecimalText b.toInt y ∧ text.length ≤ 36 ∧
    exec (.encCmd k a b) s = .next (s.after [okRsp text.length [] (itemsOf text)]) ∧
    text = (match k with
      | .powerOff => ascii "CMD POWEROFF".toList
      | .rxTune => ascii "CMD RXTUNE ".toList ++ x
      | .txTune => ascii "CMD TXTUNE ".toList ++ x
      | .setTsc => ascii "CMD SETTSC ".toList ++ x
      | .setBsic => ascii "CMD SETBSIC ".toList ++ x
      | .powerOn => ascii "CMD POWERON".toList
      | .setRxGain => ascii "CMD SETRXGAIN ".toList ++ x
      | .setPower => ascii "CMD SETPOWER ".toList ++ x
      | .setSlot => ascii "CMD SETSLOT ".toList ++ x ++ ascii " ".toList ++ y) ++ [0#8]

/-- The sample texts of 42_codec.md R206, and their lengths. -/
def Obligations.SampleCommandTexts : Prop :=
  encCmdBytes .powerOff 0#32 0#32 =
    [0x43#8, 0x4D#8, 0x44#8, 0x20#8, 0x50#8, 0x4F#8, 0x57#8, 0x45#8, 0x52#8, 0x4F#8, 0x46#8, 0x46#8, 0x00#8] ∧
  encCmdBytes .powerOn 0#32 0#32 = ascii "CMD POWERON".toList ++ [0#8] ∧
  encCmdBytes .rxTune 935000#32 0#32 =
    [0x43#8, 0x4D#8, 0x44#8, 0x20#8, 0x52#8, 0x58#8, 0x54#8, 0x55#8, 0x4E#8, 0x45#8, 0x20#8, 0x39#8, 0x33#8, 0x35#8, 0x30#8, 0x30#8,
      0x30#8, 0x00#8] ∧
  encCmdBytes .txTune 890000#32 0#32 = ascii "CMD TXTUNE 890000".toList ++ [0#8] ∧
  encCmdBytes .setTsc 7#32 0#32 = ascii "CMD SETTSC 7".toList ++ [0#8] ∧
  encCmdBytes .setBsic 63#32 0#32 = ascii "CMD SETBSIC 63".toList ++ [0#8] ∧
  encCmdBytes .setRxGain 0#32 0#32 = ascii "CMD SETRXGAIN 0".toList ++ [0#8] ∧
  encCmdBytes .setPower (BitVec.ofInt 32 (-10)) 0#32 =
    [0x43#8, 0x4D#8, 0x44#8, 0x20#8, 0x53#8, 0x45#8, 0x54#8, 0x50#8, 0x4F#8, 0x57#8, 0x45#8, 0x52#8, 0x20#8, 0x2D#8, 0x31#8, 0x30#8,
      0x00#8] ∧
  encCmdBytes .setSlot 3#32 7#32 =
    [0x43#8, 0x4D#8, 0x44#8, 0x20#8, 0x53#8, 0x45#8, 0x54#8, 0x53#8, 0x4C#8, 0x4F#8, 0x54#8, 0x20#8, 0x33#8, 0x20#8, 0x37#8, 0x00#8] ∧
  [encCmdBytes .powerOff 0#32 0#32, encCmdBytes .powerOn 0#32 0#32, encCmdBytes .rxTune 935000#32 0#32,
    encCmdBytes .txTune 890000#32 0#32, encCmdBytes .setTsc 7#32 0#32, encCmdBytes .setBsic 63#32 0#32,
    encCmdBytes .setRxGain 0#32 0#32, encCmdBytes .setPower (BitVec.ofInt 32 (-10)) 0#32, encCmdBytes .setSlot 3#32 7#32].map
      List.length = [13, 12, 18, 18, 13, 15, 16, 17, 16]

/-! ## Session -/

/-- SESS.SENDCMD: sent on CONTROL when the session is available, or the command is POWEROFF; otherwise refused with the diagnostic and
no datagram; no state written (43_session.md R222, R223). -/
def Obligations.SendCommandGate : Prop :=
  ∀ (k : Command) (a b : Word) (s : State),
    encode (.sessSendCmd k a b) = ⟨[(0x40#8 ++ k.id ++ 0x0000#16 : BitVec 32), a, b], []⟩ ∧
    (s.available = true ∨ k = .powerOff → exec (.sessSendCmd k a b) s =
      .next (s.after [.trx .control (encCmdBytes k a b), okRsp (encCmdBytes k a b).length [] []])) ∧
    (s.available = false → k ≠ .powerOff → exec (.sessSendCmd k a b) s =
      .next (s.after [.diag .refusedCmd, failRsp .refused]))

/-- SESS.SENDBURST: the timeslot is checked first, then availability; a burst that passes both is sent on DATA; no state written
(43_session.md R224, R225). -/
def Obligations.SendBurstChecksThenSends : Prop :=
  ∀ (ts gain : Byte) (fn : Word) (bits : List Byte) (s : State),
    encode (.sessSendBurst ts gain fn bits) = ⟨[(0x41#8 ++ ts ++ gain ++ 0x00#8 : BitVec 32), fn], bits.map BitVec.toNat⟩ ∧
    (ts.toNat > 7 → exec (.sessSendBurst ts gain fn bits) s = .next (s.after [failRsp .invalidArg])) ∧
    (ts.toNat ≤ 7 → s.available = false → exec (.sessSendBurst ts gain fn bits) s =
      .next (s.after [.diag .refusedBurst, failRsp .refused])) ∧
    (ts.toNat ≤ 7 → s.available = true → exec (.sessSendBurst ts gain fn bits) s =
      .next (s.after [.trx .data (encDlBytes ts fn gain bits), okRsp 154 [] []]))

/-- SESS.SENDBURST emits the datagram ENC.DL returns for the same operands and nothing else; SESS.SENDCMD emits the bytes ENC.CMD returns
(43_session.md R226). -/
def Obligations.SessionSendsWhatTheCodecReturns : Prop :=
  ∀ (ts gain : Byte) (fn : Word) (bits : List Byte) (k : Command) (a b : Word) (s : State) (v : Word) (p : List Nat),
    (exec (.encDl ts gain fn bits) s = .next (s.after [.rsp ⟨.ok, 0#8, v, [], p⟩]) → s.available = true →
      ∃ d, itemsOf d = p ∧
        exec (.sessSendBurst ts gain fn bits) s = .next (s.after [.trx .data d, .rsp ⟨.ok, 0#8, v, [], []⟩])) ∧
    (exec (.encCmd k a b) s = .next (s.after [.rsp ⟨.ok, 0#8, v, [], p⟩]) → (s.available = true ∨ k = .powerOff) →
      ∃ d, itemsOf d = p ∧
        exec (.sessSendCmd k a b) s = .next (s.after [.trx .control d, .rsp ⟨.ok, 0#8, v, [], []⟩]))

/-- RX.CLOCK does what CLK.HEARTBEAT does with the value of the text; a malformed text changes no state, starts no setup and emits only
its diagnostic (43_session.md R228, R229). -/
def Obligations.ReceivedClockIsAHeartbeat : Prop :=
  ∀ (d : List Byte) (s : State),
    encode (.rxClock d) = ⟨[0x42000000#32, BitVec.ofNat 32 d.length], d.map BitVec.toNat⟩ ∧
    (∀ v : Word, ClockGrammar s.cfg d v →
      exec (.rxClock d) s = exec (.clkHeartbeat v) s ∧
      ∃ t, exec (.rxClock d) s = .next t ∧ t.available = (s.available || !s.setupComplete) ∧ t.setupComplete = true ∧
        t.trxFrame = v) ∧
    ((∀ v : Word, ¬ ClockGrammar s.cfg d v) →
      exec (.rxClock d) s = .next (s.after [.diag .dropMalformed, failRsp .dropMalformed]))

/-- RX.CTRL accepts any bytes and changes no state (43_session.md R230, R231). -/
def Obligations.ControlDatagramHasNoEffect : Prop :=
  ∀ (d : List Byte) (s : State),
    encode (.rxCtrl d) = ⟨[0x43000000#32, BitVec.ofNat 32 d.length], d.map BitVec.toNat⟩ ∧
    exec (.rxCtrl d) s = .next (s.after [.diag .ctrlResponse, okRsp 0 [] []])
end

