-- ==== Sys2Proof/Laws/State.lean ====
section
/-! SUPPORT. What each update of the state leaves in each field, so that no proof unfolds a record update. -/

namespace Sys2Proof.Machine

open Sys2Proof


/-! ## `emit` -/

@[simp] theorem emit_cfg (s : State) (os : List Output) : (s.emit os).cfg = s.cfg := rfl
@[simp] theorem emit_rx (s : State) (os : List Output) : (s.emit os).rx = s.rx := rfl
@[simp] theorem emit_tx (s : State) (os : List Output) : (s.emit os).tx = s.tx := rfl
@[simp] theorem emit_available (s : State) (os : List Output) : (s.emit os).available = s.available := rfl
@[simp] theorem emit_setupComplete (s : State) (os : List Output) : (s.emit os).setupComplete = s.setupComplete := rfl
@[simp] theorem emit_trxFrame (s : State) (os : List Output) : (s.emit os).trxFrame = s.trxFrame := rfl
@[simp] theorem emit_currentFrame (s : State) (os : List Output) : (s.emit os).currentFrame = s.currentFrame := rfl
@[simp] theorem emit_req (s : State) (os : List Output) : (s.emit os).req = s.req := rfl
@[simp] theorem emit_out (s : State) (os : List Output) : (s.emit os).out = s.out ++ os := rfl
@[simp] theorem emit_draws (s : State) (os : List Output) : (s.emit os).draws = s.draws := rfl

/-! ## `emitTrx` -/

@[simp] theorem emitTrx_cfg (s : State) (ch : Channel) (d : List Byte) : (s.emitTrx ch d).cfg = s.cfg := rfl
@[simp] theorem emitTrx_rx (s : State) (ch : Channel) (d : List Byte) : (s.emitTrx ch d).rx = s.rx := rfl
@[simp] theorem emitTrx_tx (s : State) (ch : Channel) (d : List Byte) : (s.emitTrx ch d).tx = s.tx := rfl
@[simp] theorem emitTrx_available (s : State) (ch : Channel) (d : List Byte) : (s.emitTrx ch d).available = s.available := rfl
@[simp] theorem emitTrx_setupComplete (s : State) (ch : Channel) (d : List Byte) : (s.emitTrx ch d).setupComplete = s.setupComplete := rfl
@[simp] theorem emitTrx_trxFrame (s : State) (ch : Channel) (d : List Byte) : (s.emitTrx ch d).trxFrame = s.trxFrame := rfl
@[simp] theorem emitTrx_currentFrame (s : State) (ch : Channel) (d : List Byte) : (s.emitTrx ch d).currentFrame = s.currentFrame := rfl
@[simp] theorem emitTrx_req (s : State) (ch : Channel) (d : List Byte) : (s.emitTrx ch d).req = s.req := rfl
@[simp] theorem emitTrx_out (s : State) (ch : Channel) (d : List Byte) : (s.emitTrx ch d).out = s.out ++ [.trx ch d] := rfl
@[simp] theorem emitTrx_draws (s : State) (ch : Channel) (d : List Byte) : (s.emitTrx ch d).draws = s.draws := rfl

/-! ## `emitUp` -/

@[simp] theorem emitUp_cfg (s : State) (e : UpEvent) : (s.emitUp e).cfg = s.cfg := rfl
@[simp] theorem emitUp_rx (s : State) (e : UpEvent) : (s.emitUp e).rx = s.rx := rfl
@[simp] theorem emitUp_tx (s : State) (e : UpEvent) : (s.emitUp e).tx = s.tx := rfl
@[simp] theorem emitUp_available (s : State) (e : UpEvent) : (s.emitUp e).available = s.available := rfl
@[simp] theorem emitUp_setupComplete (s : State) (e : UpEvent) : (s.emitUp e).setupComplete = s.setupComplete := rfl
@[simp] theorem emitUp_trxFrame (s : State) (e : UpEvent) : (s.emitUp e).trxFrame = s.trxFrame := rfl
@[simp] theorem emitUp_currentFrame (s : State) (e : UpEvent) : (s.emitUp e).currentFrame = s.currentFrame := rfl
@[simp] theorem emitUp_req (s : State) (e : UpEvent) : (s.emitUp e).req = s.req := rfl
@[simp] theorem emitUp_out (s : State) (e : UpEvent) : (s.emitUp e).out = s.out ++ [.up e] := rfl
@[simp] theorem emitUp_draws (s : State) (e : UpEvent) : (s.emitUp e).draws = s.draws := rfl

/-! ## `emitDiag` -/

@[simp] theorem emitDiag_cfg (s : State) (d : DiagCode) : (s.emitDiag d).cfg = s.cfg := rfl
@[simp] theorem emitDiag_rx (s : State) (d : DiagCode) : (s.emitDiag d).rx = s.rx := rfl
@[simp] theorem emitDiag_tx (s : State) (d : DiagCode) : (s.emitDiag d).tx = s.tx := rfl
@[simp] theorem emitDiag_available (s : State) (d : DiagCode) : (s.emitDiag d).available = s.available := rfl
@[simp] theorem emitDiag_setupComplete (s : State) (d : DiagCode) : (s.emitDiag d).setupComplete = s.setupComplete := rfl
@[simp] theorem emitDiag_trxFrame (s : State) (d : DiagCode) : (s.emitDiag d).trxFrame = s.trxFrame := rfl
@[simp] theorem emitDiag_currentFrame (s : State) (d : DiagCode) : (s.emitDiag d).currentFrame = s.currentFrame := rfl
@[simp] theorem emitDiag_req (s : State) (d : DiagCode) : (s.emitDiag d).req = s.req := rfl
@[simp] theorem emitDiag_out (s : State) (d : DiagCode) : (s.emitDiag d).out = s.out ++ [.diag d] := rfl
@[simp] theorem emitDiag_draws (s : State) (d : DiagCode) : (s.emitDiag d).draws = s.draws := rfl

/-! ## `emitDiagIf` -/

@[simp] theorem emitDiagIf_cfg (s : State) (b : Bool) (d : DiagCode) : (s.emitDiagIf b d).cfg = s.cfg := by
  cases b <;> simp [State.emitDiagIf]
@[simp] theorem emitDiagIf_rx (s : State) (b : Bool) (d : DiagCode) : (s.emitDiagIf b d).rx = s.rx := by
  cases b <;> simp [State.emitDiagIf]
@[simp] theorem emitDiagIf_tx (s : State) (b : Bool) (d : DiagCode) : (s.emitDiagIf b d).tx = s.tx := by
  cases b <;> simp [State.emitDiagIf]
@[simp] theorem emitDiagIf_available (s : State) (b : Bool) (d : DiagCode) : (s.emitDiagIf b d).available = s.available := by
  cases b <;> simp [State.emitDiagIf]
@[simp] theorem emitDiagIf_setupComplete (s : State) (b : Bool) (d : DiagCode) : (s.emitDiagIf b d).setupComplete = s.setupComplete := by
  cases b <;> simp [State.emitDiagIf]
@[simp] theorem emitDiagIf_trxFrame (s : State) (b : Bool) (d : DiagCode) : (s.emitDiagIf b d).trxFrame = s.trxFrame := by
  cases b <;> simp [State.emitDiagIf]
@[simp] theorem emitDiagIf_currentFrame (s : State) (b : Bool) (d : DiagCode) : (s.emitDiagIf b d).currentFrame = s.currentFrame := by
  cases b <;> simp [State.emitDiagIf]
@[simp] theorem emitDiagIf_req (s : State) (b : Bool) (d : DiagCode) : (s.emitDiagIf b d).req = s.req := by
  cases b <;> simp [State.emitDiagIf]
@[simp] theorem emitDiagIf_out (s : State) (b : Bool) (d : DiagCode) : (s.emitDiagIf b d).out = s.out ++ (if b then [.diag d] else []) := by
  cases b <;> simp [State.emitDiagIf]
@[simp] theorem emitDiagIf_draws (s : State) (b : Bool) (d : DiagCode) : (s.emitDiagIf b d).draws = s.draws := by
  cases b <;> simp [State.emitDiagIf]

/-! ## `respond` -/

@[simp] theorem respond_cfg (s : State) (st : Status) (fl : Byte) (v : Int) (ex : List Word) (pl : List Nat) : (s.respond st fl v ex pl).cfg = s.cfg := rfl
@[simp] theorem respond_rx (s : State) (st : Status) (fl : Byte) (v : Int) (ex : List Word) (pl : List Nat) : (s.respond st fl v ex pl).rx = s.rx := rfl
@[simp] theorem respond_tx (s : State) (st : Status) (fl : Byte) (v : Int) (ex : List Word) (pl : List Nat) : (s.respond st fl v ex pl).tx = s.tx := rfl
@[simp] theorem respond_available (s : State) (st : Status) (fl : Byte) (v : Int) (ex : List Word) (pl : List Nat) : (s.respond st fl v ex pl).available = s.available := rfl
@[simp] theorem respond_setupComplete (s : State) (st : Status) (fl : Byte) (v : Int) (ex : List Word) (pl : List Nat) : (s.respond st fl v ex pl).setupComplete = s.setupComplete := rfl
@[simp] theorem respond_trxFrame (s : State) (st : Status) (fl : Byte) (v : Int) (ex : List Word) (pl : List Nat) : (s.respond st fl v ex pl).trxFrame = s.trxFrame := rfl
@[simp] theorem respond_currentFrame (s : State) (st : Status) (fl : Byte) (v : Int) (ex : List Word) (pl : List Nat) : (s.respond st fl v ex pl).currentFrame = s.currentFrame := rfl
@[simp] theorem respond_req (s : State) (st : Status) (fl : Byte) (v : Int) (ex : List Word) (pl : List Nat) : (s.respond st fl v ex pl).req = s.req := rfl
@[simp] theorem respond_out (s : State) (st : Status) (fl : Byte) (v : Int) (ex : List Word) (pl : List Nat) : (s.respond st fl v ex pl).out = s.out ++ [.rsp ⟨st, fl, BitVec.ofInt 32 v, ex, pl⟩] := rfl
@[simp] theorem respond_draws (s : State) (st : Status) (fl : Byte) (v : Int) (ex : List Word) (pl : List Nat) : (s.respond st fl v ex pl).draws = s.draws := rfl

/-! ## `raise` -/

@[simp] theorem raise_cfg (s : State) (st : Status) : (s.raise st).cfg = s.cfg := rfl
@[simp] theorem raise_rx (s : State) (st : Status) : (s.raise st).rx = s.rx := rfl
@[simp] theorem raise_tx (s : State) (st : Status) : (s.raise st).tx = s.tx := rfl
@[simp] theorem raise_available (s : State) (st : Status) : (s.raise st).available = s.available := rfl
@[simp] theorem raise_setupComplete (s : State) (st : Status) : (s.raise st).setupComplete = s.setupComplete := rfl
@[simp] theorem raise_trxFrame (s : State) (st : Status) : (s.raise st).trxFrame = s.trxFrame := rfl
@[simp] theorem raise_currentFrame (s : State) (st : Status) : (s.raise st).currentFrame = s.currentFrame := rfl
@[simp] theorem raise_req (s : State) (st : Status) : (s.raise st).req = s.req := rfl
@[simp] theorem raise_out (s : State) (st : Status) : (s.raise st).out = s.out ++ [failRsp st] := rfl
@[simp] theorem raise_draws (s : State) (st : Status) : (s.raise st).draws = s.draws := rfl

/-! ## `accept` -/

@[simp] theorem accept_cfg (s : State) : (s.accept).cfg = s.cfg := rfl
@[simp] theorem accept_rx (s : State) : (s.accept).rx = s.rx := rfl
@[simp] theorem accept_tx (s : State) : (s.accept).tx = s.tx := rfl
@[simp] theorem accept_available (s : State) : (s.accept).available = s.available := rfl
@[simp] theorem accept_setupComplete (s : State) : (s.accept).setupComplete = s.setupComplete := rfl
@[simp] theorem accept_trxFrame (s : State) : (s.accept).trxFrame = s.trxFrame := rfl
@[simp] theorem accept_currentFrame (s : State) : (s.accept).currentFrame = s.currentFrame := rfl
@[simp] theorem accept_req (s : State) : (s.accept).req = s.req.tail := rfl
@[simp] theorem accept_out (s : State) : (s.accept).out = s.out := rfl
@[simp] theorem accept_draws (s : State) : (s.accept).draws = s.draws := rfl

/-! ## `present` -/

@[simp] theorem present_cfg (s : State) (r : Request) : (s.present r).cfg = s.cfg := rfl
@[simp] theorem present_rx (s : State) (r : Request) : (s.present r).rx = s.rx := rfl
@[simp] theorem present_tx (s : State) (r : Request) : (s.present r).tx = s.tx := rfl
@[simp] theorem present_available (s : State) (r : Request) : (s.present r).available = s.available := rfl
@[simp] theorem present_setupComplete (s : State) (r : Request) : (s.present r).setupComplete = s.setupComplete := rfl
@[simp] theorem present_trxFrame (s : State) (r : Request) : (s.present r).trxFrame = s.trxFrame := rfl
@[simp] theorem present_currentFrame (s : State) (r : Request) : (s.present r).currentFrame = s.currentFrame := rfl
@[simp] theorem present_req (s : State) (r : Request) : (s.present r).req = r :: s.req := rfl
@[simp] theorem present_out (s : State) (r : Request) : (s.present r).out = s.out := rfl
@[simp] theorem present_draws (s : State) (r : Request) : (s.present r).draws = s.draws := rfl

/-! ## `setFifo` -/

@[simp] theorem setFifo_cfg (s : State) (f : FifoSel) (F : Fifo) : (s.setFifo f F).cfg = s.cfg := by cases f <;> rfl
@[simp] theorem setFifo_available (s : State) (f : FifoSel) (F : Fifo) : (s.setFifo f F).available = s.available := by cases f <;> rfl
@[simp] theorem setFifo_setupComplete (s : State) (f : FifoSel) (F : Fifo) : (s.setFifo f F).setupComplete = s.setupComplete := by cases f <;> rfl
@[simp] theorem setFifo_trxFrame (s : State) (f : FifoSel) (F : Fifo) : (s.setFifo f F).trxFrame = s.trxFrame := by cases f <;> rfl
@[simp] theorem setFifo_currentFrame (s : State) (f : FifoSel) (F : Fifo) : (s.setFifo f F).currentFrame = s.currentFrame := by cases f <;> rfl
@[simp] theorem setFifo_req (s : State) (f : FifoSel) (F : Fifo) : (s.setFifo f F).req = s.req := by cases f <;> rfl
@[simp] theorem setFifo_out (s : State) (f : FifoSel) (F : Fifo) : (s.setFifo f F).out = s.out := by cases f <;> rfl
@[simp] theorem setFifo_draws (s : State) (f : FifoSel) (F : Fifo) : (s.setFifo f F).draws = s.draws := by cases f <;> rfl

@[simp] theorem setFifo_rx (s : State) (F : Fifo) : (s.setFifo .rx F).rx = F := rfl
@[simp] theorem setFifo_rx_tx (s : State) (F : Fifo) : (s.setFifo .rx F).tx = s.tx := rfl
@[simp] theorem setFifo_tx (s : State) (F : Fifo) : (s.setFifo .tx F).tx = F := rfl
@[simp] theorem setFifo_tx_rx (s : State) (F : Fifo) : (s.setFifo .tx F).rx = s.rx := rfl

/-! ## Instances and capacities under the updates -/

@[simp] theorem fifo_setFifo (s : State) (f : FifoSel) (F : Fifo) : (s.setFifo f F).fifo f = F := by cases f <;> rfl

@[simp] theorem fifo_setFifo_other (s : State) (f : FifoSel) (F : Fifo) :
    (s.setFifo f F).fifo (otherFifo f) = s.fifo (otherFifo f) := by cases f <;> rfl

theorem fifo_setFifo_of_ne (s : State) (f g : FifoSel) (F : Fifo) (h : g ≠ f) : (s.setFifo f F).fifo g = s.fifo g := by
  cases f <;> cases g <;> first | rfl | exact absurd rfl h

@[simp] theorem fifo_emit (s : State) (os : List Output) (f : FifoSel) : (s.emit os).fifo f = s.fifo f := by cases f <;> rfl

@[simp] theorem fifo_respond (s : State) (st : Status) (fl : Byte) (v : Int) (ex : List Word) (pl : List Nat) (f : FifoSel) :
    (s.respond st fl v ex pl).fifo f = s.fifo f := by cases f <;> rfl

@[simp] theorem fifo_emitDiagIf (s : State) (b : Bool) (d : DiagCode) (f : FifoSel) :
    (s.emitDiagIf b d).fifo f = s.fifo f := by cases f <;> cases b <;> rfl

@[simp] theorem capacity_rx (s : State) : s.capacity .rx = s.cfg.capRx := rfl
@[simp] theorem capacity_tx (s : State) : s.capacity .tx = s.cfg.capTx := rfl

@[simp] theorem capacity_setFifo (s : State) (f g : FifoSel) (F : Fifo) : (s.setFifo f F).capacity g = s.capacity g := by
  cases f <;> cases g <;> rfl

@[simp] theorem capacity_emit (s : State) (os : List Output) (f : FifoSel) : (s.emit os).capacity f = s.capacity f := by
  cases f <;> rfl

/-- `raise` appends the response of the failed status and does nothing else (00_scope.md R22). -/
theorem raise_eq (s : State) (st : Status) : s.raise st = s.after [failRsp st] := rfl

/-- `respond` with status OK and flags 0. -/
theorem respond_ok_eq (s : State) (v : Int) (ex : List Word) (pl : List Nat) :
    s.respond .ok 0#8 v ex pl = s.after [okRsp v ex pl] := rfl

@[simp] theorem resetWith_cfg (c : Config) : (State.resetWith c).cfg = c := rfl

end Sys2Proof.Machine
end

