-- ==== Sys2Proof/Laws/Codec.lean ====
section
/-! SUPPORT. The ranges of what the frame-clock and codec functions give: frame numbers below the modulus, text lengths. -/

namespace Sys2Proof.Machine

open Sys2Proof

/-- The digits of a number, at most one more than the fuel. -/
theorem decimalDigits_length (f n : Nat) : (decimalDigits f n).length ≤ f + 1 := by
  induction f generalizing n with
  | zero => simp [decimalDigits]
  | succ f ih =>
    unfold decimalDigits
    split
    · simp
    · simp; exact ih _

/-- An argument in decimal has at most eleven characters. -/
theorem decimalArg_length (a : Int) : (decimalArg a).length ≤ 11 := by
  unfold decimalArg
  have := decimalDigits_length 9 a.natAbs
  simp only [List.length_append]
  split <;> simp [ascii] <;> omega

/-- A command text has at most 36 bytes (42_codec.md R204). -/
theorem encCmd_length (k : Command) (a b : Word) : (encCmdBytes k a b).length ≤ 36 := by
  have ha := decimalArg_length a.toInt
  have hb := decimalArg_length b.toInt
  cases k <;> simp [encCmdBytes, ascii, commandName, usedArgs, signedWord] <;> omega

/-- The frame after a heartbeat is below the modulus. -/
theorem heartbeatFrame_lt (c : Config) (h : c.wf) (v : Nat) : heartbeatFrame c v < 2715648 := by
  have : c.frameModulus = 2715648 := h.2.2.1
  unfold heartbeatFrame
  rw [this]; exact Nat.mod_lt _ (by omega)

/-- The frame after an advance is below the modulus. -/
theorem advanceFrame_lt (c : Config) (h : c.wf) (v : Nat) : advanceFrame c v < 2715648 := by
  have : c.frameModulus = 2715648 := h.2.2.1
  unfold advanceFrame
  rw [this]; exact Nat.mod_lt _ (by omega)

/-- A frame number, as a word, is not negative. -/
theorem frameWord_toInt (n : Nat) (h : n < 2715648) : (BitVec.ofNat 32 n).toInt = n := by
  rw [BitVec.toInt_eq_toNat_of_lt, BitVec.toNat_ofNat, Nat.mod_eq_of_lt (by omega)]
  rw [BitVec.toNat_ofNat, Nat.mod_eq_of_lt (by omega)]; omega

/-- A frame number, as a word, is itself. -/
theorem frameWord_toNat (n : Nat) (h : n < 2715648) : (BitVec.ofNat 32 n).toNat = n := by
  rw [BitVec.toNat_ofNat]; exact Nat.mod_eq_of_lt (by omega)

end Sys2Proof.Machine
end

