-- ==== Sys2Proof/Laws/Decode.lean ====
section
/-! SUPPORT. The small lemmas of the header fields, the selectors and the byte and word helpers of the decoder and encoder. -/

namespace Sys2Proof

/-! ## Header fields -/

@[simp] theorem headerOp_header (op a b z : Byte) : headerOp (header op a b z) = op := by
  apply BitVec.eq_of_getLsbD_eq
  intro i hi
  simp only [headerOp, header, BitVec.getLsbD_extractLsb', BitVec.getLsbD_append]
  interval_cases i <;> simp

@[simp] theorem headerA_header (op a b z : Byte) : headerA (header op a b z) = a := by
  apply BitVec.eq_of_getLsbD_eq
  intro i hi
  simp only [headerA, header, BitVec.getLsbD_extractLsb', BitVec.getLsbD_append]
  interval_cases i <;> simp

@[simp] theorem headerB_header (op a b z : Byte) : headerB (header op a b z) = b := by
  apply BitVec.eq_of_getLsbD_eq
  intro i hi
  simp only [headerB, header, BitVec.getLsbD_extractLsb', BitVec.getLsbD_append]
  interval_cases i <;> simp

@[simp] theorem headerZ_header (op a b z : Byte) : headerZ (header op a b z) = z := by
  apply BitVec.eq_of_getLsbD_eq
  intro i hi
  simp only [headerZ, header, BitVec.getLsbD_extractLsb', BitVec.getLsbD_append]
  interval_cases i <;> simp

/-- A header is its four fields. -/
theorem header_fields (h : Word) : header (headerOp h) (headerA h) (headerB h) (headerZ h) = h := by
  apply BitVec.eq_of_getLsbD_eq
  intro i hi
  simp only [headerOp, headerA, headerB, headerZ, header, BitVec.getLsbD_extractLsb', BitVec.getLsbD_append]
  interval_cases i <;> simp

/-- The bits of a header under a table row's mask: the opcode, `Z`, and what the mask keeps of `A` and `B`. -/
theorem header_and (op a b z op' a' b' z' : Byte) :
    header op a b z &&& header op' a' b' z' = header (op &&& op') (a &&& a') (b &&& b') (z &&& z') := by
  apply BitVec.eq_of_getLsbD_eq
  intro i hi
  simp only [header, BitVec.getLsbD_append, BitVec.getLsbD_and]
  interval_cases i <;> simp

/-! ## Selectors -/

@[simp] theorem fifoSelOf_byte (f : FifoSel) : fifoSelOf (fifoSelByte f) = f := by cases f <;> rfl

theorem fifoSelByte_of (a : Byte) (h : a = 0#8 ∨ a = 1#8) : fifoSelByte (fifoSelOf a) = a := by
  rcases h with rfl | rfl <;> rfl

@[simp] theorem commandOfId_id (k : Command) : commandOfId k.id = k := by cases k <;> rfl

theorem command_id_le (k : Command) : k.id.toNat ≤ 8 := by cases k <;> decide

theorem id_commandOfId (a : Byte) (h : a.toNat ≤ 8) : (commandOfId a).id = a := by
  have hb : ∀ n : Fin 9, (commandOfId (BitVec.ofNat 8 n)).id = BitVec.ofNat 8 n := by decide
  have := hb ⟨a.toNat, Nat.lt_succ_of_le h⟩
  simpa using this

/-! ## The opcode map -/

@[simp] theorem opcodeOfByte_byte (o : Opcode) : opcodeOfByte o.byte = some o := by cases o <;> rfl

/-- No two opcodes share a byte. -/
theorem byte_injective (o p : Opcode) (h : o.byte = p.byte) : o = p := by
  have := congrArg opcodeOfByte h
  simpa using this

theorem byte_of_opcodeOfByte (b : Byte) (o : Opcode) (h : opcodeOfByte b = some o) : o.byte = b := by
  have := List.find?_some h
  simpa using this

theorem mem_allOpcodes (o : Opcode) : o ∈ allOpcodes := by cases o <;> decide

theorem opcodeOfByte_eq_none (b : Byte) : opcodeOfByte b = none ↔ ∀ o : Opcode, o.byte ≠ b := by
  constructor
  · intro h o ho
    rw [← ho, opcodeOfByte_byte] at h
    cases h
  · intro h
    refine List.find?_eq_none.2 fun o _ => ?_
    simpa using h o

/-! ## Words and bytes -/

@[simp] theorem joinWords_high_low (t : Timestamp) : joinWords (highWord t) (lowWord t) = t := by
  apply BitVec.eq_of_getLsbD_eq
  intro i hi
  simp only [joinWords, highWord, lowWord, BitVec.getLsbD_append, BitVec.getLsbD_extractLsb']
  split
  · simp_all
  · rename_i h
    have h1 : i - 32 < 32 := by omega
    have h2 : 32 + (i - 32) = i := by omega
    simp [h1, h2]

@[simp] theorem highWord_join (hi lo : Word) : highWord (joinWords hi lo) = hi := by
  apply BitVec.eq_of_getLsbD_eq
  intro i h
  simp only [joinWords, highWord, BitVec.getLsbD_append, BitVec.getLsbD_extractLsb']
  have h2 : ¬ 32 + i < 32 := by omega
  simp [h, h2]

@[simp] theorem lowWord_join (hi lo : Word) : lowWord (joinWords hi lo) = lo := by
  apply BitVec.eq_of_getLsbD_eq
  intro i h
  simp only [joinWords, lowWord, BitVec.getLsbD_append, BitVec.getLsbD_extractLsb']
  simp [h]

@[simp] theorem length_itemsOf (d : List Byte) : (itemsOf d).length = d.length := by simp [itemsOf]

@[simp] theorem length_bytesOf (l : List Nat) : (bytesOf l).length = l.length := by simp [bytesOf]

@[simp] theorem bytesOf_itemsOf (d : List Byte) : bytesOf (itemsOf d) = d := by
  simp [bytesOf, itemsOf, Function.comp_def]

theorem itemsOf_bytesOf (l : List Nat) (h : ∀ x ∈ l, x < 2 ^ 8) : itemsOf (bytesOf l) = l := by
  simp only [itemsOf, bytesOf, List.map_map]
  have hid : ∀ x ∈ l, (BitVec.toNat ∘ BitVec.ofNat 8) x = x := fun x hx => by
    simpa using Nat.mod_eq_of_lt (h x hx)
  exact (List.map_congr_left hid).trans (List.map_id' l)

/-- The items of a byte sequence are bytes. -/
theorem itemsOf_lt (d : List Byte) (x : Nat) (h : x ∈ itemsOf d) : x < 2 ^ 8 := by
  obtain ⟨b, _, rfl⟩ := List.mem_map.1 h
  exact b.isLt

theorem lengthWord_toNat (d : List Byte) (h : d.length ≤ maxDgram) : (lengthWord d).toNat = d.length := by
  simp only [lengthWord, BitVec.toNat_ofNat]
  exact Nat.mod_eq_of_lt (by have : maxDgram = 65535 := rfl; omega)

@[simp] theorem operandWord_zero (w : Word) (ws : List Word) : operandWord (w :: ws) 0 = w := rfl

@[simp] theorem operandWord_succ (w : Word) (ws : List Word) (i : Nat) :
    operandWord (w :: ws) (i + 1) = operandWord ws i := rfl

/-! ## The decoder, once for all instructions -/

/-- The decoder on a request whose header is legal. -/
theorem decode_legal (c : Config) (o : Opcode) (a b : Byte) (ws : List Word) (items : List Nat)
    (hb : o.format = .burst ∨ b = 0#8) (ha : aLegal o a = true) :
    decode c ⟨header o.byte a b 0#8 :: ws, items⟩ = decodeBody c o (header o.byte a b 0#8) ws items := by
  have : ¬ (o.format ≠ .burst ∧ b ≠ 0#8) := by tauto
  simp [decode, this, ha]

/-- The decoder's body on operand words and items that pass every check. -/
theorem decodeBody_ok (c : Config) (o : Opcode) (h : Word) (ws : List Word) (items : List Nat)
    (hw : ws.length = o.format.operandWords) (hd : o.format = .dg → (operandWord ws 0).toNat ≤ maxDgram)
    (hl : items.length = payloadLength o ws) (hi : ∀ x ∈ items, x < 2 ^ itemBits c o) :
    decodeBody c o h ws items = .ok (build o h ws items) := by
  have h1 : ¬ (o.format = .dg ∧ maxDgram < (operandWord ws 0).toNat) := by
    rintro ⟨e, hlt⟩
    exact absurd (hd e) (Nat.not_le.2 hlt)
  have h2 : items.all (fun x => decide (x < 2 ^ itemBits c o)) = true := by
    simpa [List.all_eq_true] using hi
  unfold decodeBody
  rw [if_neg (not_not.2 hw), if_neg h1, if_neg (not_not.2 hl), if_neg (by rw [h2]; decide)]

/-- What a decoded request looks like: its header is legal, its words and items pass every check, and the instruction is the
one `build` makes. -/
theorem decode_cases (c : Config) (r : Request) (i : Instr) (h : decode c r = .ok i) :
    ∃ hd ws o, r = ⟨hd :: ws, r.payload⟩ ∧ opcodeOfByte (headerOp hd) = some o ∧ headerZ hd = 0#8 ∧
      (o.format = .burst ∨ headerB hd = 0#8) ∧ aLegal o (headerA hd) = true ∧ ws.length = o.format.operandWords ∧
      (o.format = .dg → (operandWord ws 0).toNat ≤ maxDgram) ∧ r.payload.length = payloadLength o ws ∧
      (∀ x ∈ r.payload, x < 2 ^ itemBits c o) ∧ i = build o hd ws r.payload := by
  obtain ⟨words, items⟩ := r
  cases words with
  | nil => simp [decode] at h
  | cons hd ws =>
    simp only [decode] at h
    split at h
    · cases h
    · rename_i o ho
      split at h
      · cases h
      split at h
      · cases h
      split at h
      · cases h
      rename_i hz hb ha
      unfold decodeBody at h
      split at h
      · cases h
      split at h
      · cases h
      split at h
      · cases h
      split at h
      · cases h
      rename_i hw hdg hl hi
      refine ⟨hd, ws, o, rfl, ho, not_not.1 hz, ?_, by simpa using ha, not_not.1 hw, ?_, not_not.1 hl, ?_, ?_⟩
      · by_cases e : o.format = .burst
        · exact Or.inl e
        · exact Or.inr (not_not.1 fun hne => hb ⟨e, hne⟩)
      · intro e
        exact Nat.not_lt.1 fun hlt => hdg ⟨e, hlt⟩
      · simpa [List.all_eq_true] using hi
      · cases h
        rfl

end Sys2Proof
end

