-- ==== Sys2Proof/Laws/Memory.lean ====
section
/-! SUPPORT. The laws of the sample storage: what a read gives after a write, and that every operation keeps the canonical form. -/

namespace Sys2Proof.Machine

open Sys2Proof

@[simp] theorem read_nil (a : Nat) : Memory.read [] a = none := rfl

/-- A read after a write to the same slot gives the value written. -/
@[simp] theorem read_write_same (m : Memory) (a : Nat) (v : Sample) : Memory.read (Memory.write m a v) a = some v := by
  induction m with
  | nil => simp [Memory.write, Memory.read]
  | cons p rest ih =>
    obtain ⟨b, w⟩ := p
    unfold Memory.write
    split
    · simp [Memory.read]
    · split
      · simp [Memory.read]
      · rename_i h1 h2
        have : b ≠ a := fun h => h2 h.symm
        simp [Memory.read, this, ih]

/-- A write leaves every other slot alone. -/
theorem read_write_other (m : Memory) (a b : Nat) (v : Sample) (h : b ≠ a) :
    Memory.read (Memory.write m a v) b = Memory.read m b := by
  induction m with
  | nil => simp [Memory.write, Memory.read, h.symm]
  | cons p rest ih =>
    obtain ⟨k, w⟩ := p
    unfold Memory.write
    split
    · simp [Memory.read, h.symm]
    · split
      · rename_i h1 h2
        subst h2
        simp [Memory.read, h.symm]
      · simp [Memory.read, ih]

/-- Every entry after a write is the one written or an entry from before. -/
theorem mem_write (m : Memory) (a : Nat) (v : Sample) (p : Nat × Sample) (h : p ∈ Memory.write m a v) :
    p = (a, v) ∨ p ∈ m := by
  induction m with
  | nil => simpa [Memory.write] using h
  | cons q rest ih =>
    obtain ⟨k, w⟩ := q
    unfold Memory.write at h
    split at h
    · simpa [List.mem_cons] using h
    · split at h
      · rcases List.mem_cons.1 h with h | h
        · exact Or.inl h
        · exact Or.inr (List.mem_cons_of_mem _ h)
      · rcases List.mem_cons.1 h with h | h
        · exact Or.inr (h ▸ List.mem_cons_self)
        · exact (ih h).imp id (List.mem_cons_of_mem _)

/-- A write keeps the canonical form. -/
theorem write_wf (m : Memory) (a : Nat) (v : Sample) (h : Memory.wf m) : Memory.wf (Memory.write m a v) := by
  induction m with
  | nil => simp [Memory.write, Memory.wf]
  | cons q rest ih =>
    obtain ⟨k, w⟩ := q
    have hr := List.pairwise_cons.1 h
    unfold Memory.write
    split
    · rename_i hak
      refine List.pairwise_cons.2 ⟨fun p hp => ?_, h⟩
      rcases List.mem_cons.1 hp with rfl | hp
      · exact hak
      · exact Nat.lt_trans hak (hr.1 p hp)
    · split
      · rename_i _ hak
        subst hak
        exact List.pairwise_cons.2 ⟨hr.1, hr.2⟩
      · rename_i h1 h2
        refine List.pairwise_cons.2 ⟨fun p hp => ?_, ih hr.2⟩
        rcases mem_write rest a v p hp with rfl | hp
        · simp only; omega
        · exact hr.1 p hp

/-- A run of writes keeps the canonical form. -/
theorem writeAll_wf (cells : List (Nat × Sample)) (m : Memory) (h : Memory.wf m) : Memory.wf (Memory.writeAll m cells) := by
  induction cells generalizing m with
  | nil => exact h
  | cons p rest ih => exact ih _ (write_wf m p.1 p.2 h)

/-- Every entry after a run of writes is one of the cells written or an entry from before. -/
theorem mem_writeAll (cells : List (Nat × Sample)) (m : Memory) (p : Nat × Sample) (h : p ∈ Memory.writeAll m cells) :
    p ∈ cells ∨ p ∈ m := by
  induction cells generalizing m with
  | nil => exact Or.inr h
  | cons q rest ih =>
    rcases ih _ h with h | h
    · exact Or.inl (List.mem_cons_of_mem _ h)
    · rcases mem_write m q.1 q.2 p h with h | h
      · exact Or.inl (h ▸ List.mem_cons_self)
      · exact Or.inr h

/-- A run of writes leaves every slot alone that none of its cells names. -/
theorem read_writeAll_other (cells : List (Nat × Sample)) (m : Memory) (a : Nat) (h : ∀ p ∈ cells, p.1 ≠ a) :
    Memory.read (Memory.writeAll m cells) a = Memory.read m a := by
  induction cells generalizing m with
  | nil => rfl
  | cons q rest ih =>
    have hq : a ≠ q.1 := fun e => h q List.mem_cons_self e.symm
    exact (ih _ fun p hp => h p (List.mem_cons_of_mem _ hp)).trans (read_write_other m q.1 a q.2 hq)

/-- After a run of writes to distinct slots, a slot that a cell names holds that cell's value. -/
theorem read_writeAll_mem (cells : List (Nat × Sample)) (m : Memory) (p : Nat × Sample)
    (hd : cells.Pairwise fun p q => p.1 ≠ q.1) (hp : p ∈ cells) : Memory.read (Memory.writeAll m cells) p.1 = some p.2 := by
  induction cells generalizing m with
  | nil => cases hp
  | cons q rest ih =>
    have hd' := List.pairwise_cons.1 hd
    rcases List.mem_cons.1 hp with rfl | hp
    · exact (read_writeAll_other rest _ p.1 fun r hr => (hd'.1 r hr).symm).trans (read_write_same m p.1 p.2)
    · exact ih _ hd'.2 hp

/-- The storage of an empty instance is in the canonical form. -/
theorem emptyFifo_store_wf (b : Bool) : Memory.wf (emptyFifo b).store := List.Pairwise.nil

/-- The storage after reset is in the canonical form. -/
theorem reset_store_wf (f : FifoSel) : Memory.wf (State.reset.fifo f).store := by cases f <;> exact List.Pairwise.nil

/-- The storage after a FIFO.WRITE with status OK is in the canonical form. -/
theorem written_store_wf (F : Fifo) (C : Nat) (n t : Int) (data : List Sample) (h : Memory.wf F.store) :
    Memory.wf (F.written C n t data).store := writeAll_wf _ _ (writeAll_wf _ _ h)

/-- A FIFO.READ does not write the storage. -/
@[simp] theorem consumed_store (F : Fifo) (m t : Int) : (F.consumed m t).store = F.store := rfl

/-- A slot that holds a value is read as that value, whatever the draw. -/
theorem sampleRead_of_some (c : Config) (draw : Nat) (m : Memory) (a : Nat) (v : Sample) (h : Memory.read m a = some v) :
    sampleRead c draw m a = v := by simp [sampleRead, h]

end Sys2Proof.Machine
end

