-- ==== Sys2Proof/Laws/Exec.lean ====
section
/-! SUPPORT. What a meaning can answer, said once for all instructions. -/

namespace Sys2Proof.Machine

open Sys2Proof

/-- The two ways an operation ends (00_scope.md R22): it fails, with at most one diagnostic and the response of its status; or it
succeeds, with outputs that hold no response and then its response. -/
def Answers (i : Instr) (s : State) : Prop :=
  (∃ (st : Status) (ds : List Output), st ≠ .ok ∧ ds.length ≤ 1 ∧ (∀ o ∈ ds, isDiag o = true) ∧
    exec i s = .next (s.after (ds ++ [failRsp st]))) ∨
  (∃ (t : State) (evs : List Output) (resp : Response), exec i s = .next t ∧ t.cfg = s.cfg ∧ t.req = s.req ∧
    t.out = s.out ++ (evs ++ [.rsp resp]) ∧ (∀ o ∈ evs, isRsp o = false) ∧ resp.status = .ok ∧ resp.flags.toNat < 8 ∧
    ((∀ f n ts data, i ≠ .fifoWrite f n ts data) → resp.flags = 0#8))

/-- An operation that fails without a diagnostic. -/
theorem answers_raise {i : Instr} {s : State} (st : Status) (h : st ≠ .ok) (e : exec i s = .next (s.raise st)) :
    Answers i s := .inl ⟨st, [], h, Nat.zero_le _, by simp, e⟩

/-- An operation that fails with a diagnostic. -/
theorem answers_diag_raise {i : Instr} {s : State} (d : DiagCode) (st : Status) (h : st ≠ .ok)
    (e : exec i s = .next ((s.emitDiag d).raise st)) : Answers i s := by
  refine .inl ⟨st, [.diag d], h, Nat.le_refl _, by simp [isDiag], e.trans ?_⟩
  simp [State.emitDiag, State.emit, raise_eq]

/-- An operation that succeeds with flags 0: its state before the response has the outputs `evs` appended. -/
theorem answers_respond {i : Instr} {s u : State} {v : Int} {ex : List Word} {pl : List Nat} (evs : List Output)
    (e : exec i s = .next (u.respond .ok 0#8 v ex pl)) (hc : u.cfg = s.cfg) (hr : u.req = s.req)
    (ho : u.out = s.out ++ evs) (hn : ∀ o ∈ evs, isRsp o = false) : Answers i s :=
  .inr ⟨_, evs, ⟨.ok, 0#8, BitVec.ofInt 32 v, ex, pl⟩, e, hc, hr, by simp [ho], hn, rfl, by simp, fun _ => rfl⟩

/-- The outputs of a heartbeat before its response (41_frameclock.md R172). -/
def heartbeatOutputs (v : Word) (s : State) : List Output :=
  if s.setupComplete then [.up (.frameInd (BitVec.ofNat 32 (heartbeatFrame s.cfg (unsignedWord v))))] else setupOutputs s.cfg

/-- Everything a heartbeat does (41_frameclock.md R172 to R174). -/
theorem heartbeat_eq (v : Word) (s : State) :
    heartbeat v s =
      { s with
        available := s.available || !s.setupComplete, setupComplete := true, trxFrame := v,
        currentFrame := BitVec.ofNat 32 (heartbeatFrame s.cfg (unsignedWord v)),
        out := s.out ++ heartbeatOutputs v s ++ [okRsp (BitVec.ofNat 32 (heartbeatFrame s.cfg (unsignedWord v))).toInt [] []] } := by
  unfold heartbeat heartbeatOutputs
  cases h : s.setupComplete <;> simp [State.emitUp, State.emit, State.respond, okRsp]

theorem heartbeatOutputs_not_rsp (v : Word) (s : State) (o : Output) (h : o ∈ heartbeatOutputs v s) : isRsp o = false := by
  unfold heartbeatOutputs at h
  split at h
  · simp only [List.mem_singleton] at h
    subst h
    rfl
  · obtain ⟨x, _, rfl⟩ := List.mem_map.1 h
    rfl

/-- A meaning that is one heartbeat. -/
theorem answers_heartbeat {i : Instr} {s : State} (v : Word) (e : exec i s = .next (heartbeat v s)) : Answers i s := by
  rw [heartbeat_eq] at e
  refine .inr ⟨_, heartbeatOutputs v s, 
    ⟨.ok, 0#8, BitVec.ofInt 32 (BitVec.ofNat 32 (heartbeatFrame s.cfg (unsignedWord v))).toInt, [], []⟩, e, rfl, rfl, ?_,
    heartbeatOutputs_not_rsp v s, rfl, by simp, fun _ => rfl⟩
  exact List.append_assoc ..

/-- The status a failed uplink check answers is one of two (42_codec.md R197). -/
theorem decodeUplink_error (d : List Byte) (st : Status) (h : decodeUplink d = .error st) :
    st = .dropLength ∨ st = .dropTimeslot := by
  unfold decodeUplink at h
  split at h
  · cases h
    exact .inl rfl
  · split at h
    · cases h
      exact .inr rfl
    · cases h

theorem flagByte_lt (a b c : Bool) : (flagByte a b c).toNat < 8 := by cases a <;> cases b <;> cases c <;> decide

/-- FIFO.WRITE fails by one of its checks or succeeds. -/
theorem fifoWrite_answers (f : FifoSel) (n : Word) (ts : Timestamp) (data : List Sample) (s : State) :
    Answers (.fifoWrite f n ts data) s := by
  by_cases h1 : (s.fifo f).isOpen = false
  · exact answers_raise .closed (by decide) (by simp only [exec, execFifoWrite, if_pos h1])
  by_cases h2 : signedWord n < 0 ∨ signedWord n > s.capacity f
  · exact answers_raise .invalidArg (by decide) (by simp only [exec, execFifoWrite, if_neg h1, if_pos h2])
  by_cases h3 : signedTimestamp ts + signedWord n > maxTimestamp
  · exact answers_raise .invalidArg (by decide) (by simp only [exec, execFifoWrite, if_neg h1, if_neg h2, if_pos h3])
  by_cases h4 : signedTimestamp ts < writeO (s.fifo f) (signedTimestamp ts)
  · exact answers_raise .stale (by decide) (by simp only [exec, execFifoWrite, if_neg h1, if_neg h2, if_neg h3, if_pos h4])
  have e : exec (.fifoWrite f n ts data) s = .next ((((s.emitDiagIf (flagOvw (s.fifo f) (signedWord n) (signedTimestamp ts))
      .overwrite).emitDiagIf (flagOvf (s.fifo f) (s.capacity f) (signedWord n) (signedTimestamp ts)) .overflow).setFifo f
      ((s.fifo f).written (s.capacity f) (signedWord n) (signedTimestamp ts) data)).respond .ok
      (writeFlags (s.fifo f) (s.capacity f) (signedWord n) (signedTimestamp ts)) (signedWord n) [] []) := by
    simp only [exec, execFifoWrite, if_neg h1, if_neg h2, if_neg h3, if_neg h4]
  refine .inr ⟨_, (if flagOvw (s.fifo f) (signedWord n) (signedTimestamp ts) then [.diag .overwrite] else []) ++
      (if flagOvf (s.fifo f) (s.capacity f) (signedWord n) (signedTimestamp ts) then [.diag .overflow] else []),
    ⟨.ok, writeFlags (s.fifo f) (s.capacity f) (signedWord n) (signedTimestamp ts), BitVec.ofInt 32 (signedWord n), [], []⟩,
    e, by simp, by simp, by simp only [respond_out, setFifo_out, emitDiagIf_out, List.append_assoc], ?_, rfl,
    flagByte_lt _ _ _, ?_⟩
  · intro o ho
    rcases List.mem_append.1 ho with ho | ho <;> split at ho <;> simp_all [isRsp]
  · intro h
    exact absurd rfl (h f n ts data)

/-- FIFO.READ fails by one of its checks or succeeds. -/
theorem fifoRead_answers (f : FifoSel) (m : Word) (ts : Timestamp) (s : State) : Answers (.fifoRead f m ts) s := by
  by_cases h1 : (s.fifo f).isOpen = false
  · exact answers_raise .closed (by decide) (by simp only [exec, execFifoRead, if_pos h1])
  by_cases h2 : signedWord m < 0
  · exact answers_raise .invalidArg (by decide) (by simp only [exec, execFifoRead, if_neg h1, if_pos h2])
  by_cases h3 : signedTimestamp ts < (s.fifo f).origin.toInt
  · exact answers_raise .past (by decide) (by simp only [exec, execFifoRead, if_neg h1, if_neg h2, if_pos h3])
  by_cases h4 : signedTimestamp ts ≥ (s.fifo f).endTime
  · exact answers_respond [] (by simp only [exec, execFifoRead, if_neg h1, if_neg h2, if_neg h3, if_pos h4]; rfl) rfl rfl
      (by simp) (by simp)
  · exact answers_respond [] (by simp only [exec, execFifoRead, if_neg h1, if_neg h2, if_neg h3, if_neg h4]; rfl)
      (by simp) (by simp) (by simp) (by simp)

/-- Every operation ends in one of the two ways, in every state. -/
theorem exec_answers (i : Instr) (s : State) : Answers i s := by
  cases i with
  | fifoOpen f => exact answers_respond [] rfl (by simp) (by simp) (by simp) (by simp)
  | fifoClose f => exact answers_respond [] rfl (by simp) (by simp) (by simp) (by simp)
  | fifoWrite f n ts data => exact fifoWrite_answers f n ts data s
  | fifoRead f m ts => exact fifoRead_answers f m ts s
  | fifoStatus f => exact answers_respond [] rfl (by simp) (by simp) (by simp) (by simp)
  | clkHeartbeat v => exact answers_heartbeat v rfl
  | clkAdvance => exact answers_respond [] rfl rfl rfl (by simp) (by simp)
  | clkTimeout =>
    exact answers_respond [.trx .control (encCmdBytes .powerOff 0#32 0#32), .diag .heartbeatLost] rfl (by simp) (by simp)
      (by simp) (by simp [isRsp])
  | clkStatus => exact answers_respond [] rfl rfl rfl (by simp) (by simp)
  | encDl ts g fn bits =>
    by_cases h : timeslotOk ts = false
    · exact answers_raise .invalidArg (by decide) (by simp only [exec, execEncDl, if_pos h])
    · exact answers_respond [] (by simp only [exec, execEncDl, if_neg h]; rfl) rfl rfl (by simp) (by simp)
  | decUl d =>
    cases h : decodeUplink d with
    | error st =>
      refine answers_raise st ?_ (by simp only [exec, execDecUl, h])
      rcases decodeUplink_error d st h with rfl | rfl <;> decide
    | ok u => exact answers_respond [] (by simp only [exec, execDecUl, h]; rfl) rfl rfl (by simp) (by simp)
  | decClock d =>
    cases h : decClockValue s.cfg d with
    | none => exact answers_raise .dropMalformed (by decide) (by simp only [exec, execDecClock, h])
    | some v => exact answers_respond [] (by simp only [exec, execDecClock, h]; rfl) rfl rfl (by simp) (by simp)
  | encCmd k a b => exact answers_respond [] rfl rfl rfl (by simp) (by simp)
  | sessSendCmd k a b =>
    by_cases h : s.available = false ∧ k ≠ .powerOff
    · exact answers_diag_raise .refusedCmd .refused (by decide) (by simp only [exec, execSessSendCmd, if_pos h])
    · exact answers_respond [.trx .control (encCmdBytes k a b)] (by simp only [exec, execSessSendCmd, if_neg h]; rfl)
        (by simp) (by simp) (by simp) (by simp [isRsp])
  | sessSendBurst ts g fn bits =>
    by_cases h : timeslotOk ts = false
    · exact answers_raise .invalidArg (by decide) (by simp only [exec, execSessSendBurst, if_pos h])
    by_cases ha : s.available = false
    · exact answers_diag_raise .refusedBurst .refused (by decide) (by simp only [exec, execSessSendBurst, if_neg h, if_pos ha])
    · exact answers_respond [.trx .data (encDlBytes ts fn g bits)]
        (by simp only [exec, execSessSendBurst, if_neg h, if_neg ha]; rfl) (by simp) (by simp) (by simp) (by simp [isRsp])
  | rxClock d =>
    cases h : decClockValue s.cfg d with
    | none => exact answers_diag_raise .dropMalformed .dropMalformed (by decide) (by simp only [exec, execRxClock, h])
    | some v => exact answers_heartbeat v (by simp only [exec, execRxClock, h])
  | rxCtrl d => exact answers_respond [.diag .ctrlResponse] rfl (by simp) (by simp) (by simp) (by simp [isRsp])
  | rxData d =>
    cases h : decodeUplink d with
    | error st =>
      refine answers_diag_raise (uplinkDiag st) st ?_ (by simp only [exec, execRxData, h])
      rcases decodeUplink_error d st h with rfl | rfl <;> decide
    | ok u =>
      exact answers_respond [.up (.ulBurst u)] (by simp only [exec, execRxData, h]; rfl) (by simp) (by simp) (by simp)
        (by simp [isRsp])

end Sys2Proof.Machine
end

