-- ==== Sys2Proof/Laws/Fifo.lean ====
section
/-! SUPPORT. The arithmetic of the FIFO windows and slots (20_memory.md R71, 40_fifo.md R144, R153): where the quantities of the
pseudocode lie, what the fields hold after a write and after a read, and when two timestamps share a slot. -/

namespace Sys2Proof.Machine

open Sys2Proof

/-! ## Slots -/

theorem mod_chain (a b c C : Int) : ((a % C - b) % C + c) % C = (a - b + c) % C := by
  have h : (a % C - b) % C + c ≡ a - b + c [ZMOD C] :=
    ((Int.mod_modEq _ C).trans ((Int.mod_modEq a C).sub_right b)).add_right c
  exact h

/-- The slot of a timestamp, counted back from the append slot: one step of a slot for one step of time. -/
theorem slot_eq (F : Fifo) (C : Nat) (s : Int) : F.slot C s = ((F.wcur.toNat + (s - F.endTime) : Int) % C).toNat := by
  have h : (F.head C + (s - F.origin.toInt)) % (C : Int) = (F.wcur.toNat + (s - F.endTime)) % C := by
    have h1 : F.head C + (s - F.origin.toInt) ≡ (F.wcur.toNat - F.length.toNat : Int) + (s - F.origin.toInt) [ZMOD C] :=
      (Int.mod_modEq _ _).add_right _
    have h2 : (F.wcur.toNat - F.length.toNat : Int) + (s - F.origin.toInt) = F.wcur.toNat + (s - F.endTime) := by
      simp only [Fifo.endTime]; ring
    rw [h2] at h1
    exact h1
  rw [Fifo.slot, h]

/-- The slot of a timestamp after a write, counted from the append slot before it. -/
theorem writeSlot_eq (F : Fifo) (C : Nat) (n t s : Int) :
    writeSlot F C n t s = ((F.wcur.toNat + (s - writeE F t) : Int) % C).toNat := by
  have h : (writeH2 F C n t + (s - writeO2 F C n t)) % (C : Int) = (F.wcur.toNat + (s - writeE F t)) % C := by
    rw [writeH2, writeWc2, mod_chain]
    congr 1
    simp only [writeL2]; ring
  rw [writeSlot, h]

/-- A slot is below the capacity. -/
theorem slotNat_lt (C : Nat) (hC : 1 ≤ C) (a : Int) : (a % (C : Int)).toNat < C := by
  have h0 : (0 : Int) < C := by omega
  have h1 := Int.emod_nonneg a (Int.ne_of_gt h0)
  have h2 := Int.emod_lt_of_pos a h0
  omega

/-- Two timestamps less than a capacity apart have different slots (20_memory.md R71). -/
theorem slotNat_inj (C : Nat) (hC : 1 ≤ C) (a b : Int) (h : (a % (C : Int)).toNat = (b % (C : Int)).toNat)
    (hlt : a - b < C) (hgt : b - a < C) : a = b := by
  have h0 : (0 : Int) < C := by omega
  have ha := Int.emod_nonneg a (Int.ne_of_gt h0)
  have hb := Int.emod_nonneg b (Int.ne_of_gt h0)
  have he : a % (C : Int) = b % C := by omega
  have hd : (C : Int) ∣ a - b := Int.ModEq.dvd (show b % (C : Int) = a % C from he.symm)
  have := Int.eq_zero_of_abs_lt_dvd hd (abs_lt.2 ⟨by omega, by omega⟩)
  omega

theorem writeSlot_inj (F : Fifo) (C : Nat) (hC : 1 ≤ C) (n t x y : Int) (h : writeSlot F C n t x = writeSlot F C n t y)
    (hlt : x - y < C) (hgt : y - x < C) : x = y := by
  rw [writeSlot_eq, writeSlot_eq] at h
  have := slotNat_inj C hC _ _ h (by omega) (by omega)
  omega

/-! ## The quantities of a write -/

/-- What a write needs of its instance and operands: an instance in its ranges, and the checks of R144 passed. -/
structure WriteOk (F : Fifo) (C : Nat) (n t : Int) : Prop where
  one_le : 1 ≤ C
  cap : C ≤ 2147483647
  len : F.length.toNat ≤ C
  wcur : F.wcur.toNat < C
  fin : F.endTime ≤ maxTimestamp
  n_nonneg : 0 ≤ n
  n_le : n ≤ C
  t_ge : -9223372036854775808 ≤ t
  top : t + n ≤ maxTimestamp
  not_stale : writeO F t ≤ t

theorem toInt_ge (v : Timestamp) : -9223372036854775808 ≤ v.toInt := by
  have := BitVec.le_toInt v
  simpa using this

/-- `O ≤ O2 ≤ t ≤ E2`, the window after the write fits the capacity, and no bound leaves the signed 64-bit range. -/
theorem WriteOk.bounds {F : Fifo} {C : Nat} {n t : Int} (h : WriteOk F C n t) :
    -9223372036854775808 ≤ writeO F t ∧ writeO F t ≤ writeO2 F C n t ∧ writeO2 F C n t ≤ t ∧ t + n ≤ writeE2 F n t ∧
    writeE F t ≤ writeE2 F n t ∧ writeE2 F n t ≤ maxTimestamp ∧ 0 ≤ writeL2 F C n t ∧ writeL2 F C n t ≤ C ∧
    writeE2 F n t - C ≤ writeO2 F C n t ∧ (writeE F t ≤ writeO2 F C n t ∨ writeO F t ≤ writeE F t) := by
  obtain ⟨h1, h2, h3, h4, h5, h6, h7, h8, h9, h10⟩ := h
  have ho := toInt_ge F.origin
  simp only [Fifo.endTime] at h5
  have hO : -9223372036854775808 ≤ writeO F t := by unfold writeO; split <;> assumption
  have hE : writeE F t ≤ maxTimestamp := by
    unfold writeE writeO
    split <;> omega
  have hE' : writeE F t = writeO F t + F.length.toNat := rfl
  have hm : maxTimestamp = 9223372036854775807 := rfl
  simp only [writeL2, writeO2, writeE2]
  omega

/-- The origin field after a write. -/
theorem written_origin {F : Fifo} {C : Nat} {n t : Int} (h : WriteOk F C n t) (data : List Sample) :
    (F.written C n t data).origin.toInt = writeO2 F C n t := by
  have hb := h.bounds
  have := h.top
  have := h.n_nonneg
  have hm : maxTimestamp = 9223372036854775807 := rfl
  simp only [Fifo.written, BitVec.toInt_ofInt]
  apply Int.bmod_eq_of_le <;> omega

/-- The length field after a write. -/
theorem written_length {F : Fifo} {C : Nat} {n t : Int} (h : WriteOk F C n t) (data : List Sample) :
    ((F.written C n t data).length.toNat : Int) = writeL2 F C n t := by
  have hb := h.bounds
  have := h.cap
  simp only [Fifo.written, BitVec.toNat_ofInt]
  rw [Int.emod_eq_of_lt (by omega) (by omega)]
  omega

/-- The cursor field after a write. -/
theorem written_wcur {F : Fifo} {C : Nat} {n t : Int} (h : WriteOk F C n t) (data : List Sample) :
    ((F.written C n t data).wcur.toNat : Int) = writeWc2 F C n t := by
  have h0 : (0 : Int) < C := by have := h.one_le; omega
  have h1 : 0 ≤ writeWc2 F C n t := Int.emod_nonneg _ (Int.ne_of_gt h0)
  have h2 : writeWc2 F C n t < C := Int.emod_lt_of_pos _ h0
  have := h.cap
  simp only [Fifo.written, BitVec.toNat_ofInt]
  rw [Int.emod_eq_of_lt (by omega) (by omega)]
  omega

/-- The end after a write. -/
theorem written_endTime {F : Fifo} {C : Nat} {n t : Int} (h : WriteOk F C n t) (data : List Sample) :
    (F.written C n t data).endTime = writeE2 F n t := by
  simp only [Fifo.endTime, written_origin h data, written_length h data, writeL2]
  ring

/-- The slot map after a write is the one the pseudocode writes through. -/
theorem written_slot {F : Fifo} {C : Nat} {n t : Int} (h : WriteOk F C n t) (data : List Sample) (s : Int) :
    (F.written C n t data).slot C s = writeSlot F C n t s := by
  simp only [Fifo.slot, Fifo.head, written_origin h data, written_length h data, written_wcur h data, writeSlot, writeH2]

/-- A sample that is retained keeps its slot (40_fifo.md R147). -/
theorem writeSlot_old (F : Fifo) (C : Nat) (n t s : Int) (h : writeE F t = F.endTime) : writeSlot F C n t s = F.slot C s := by
  rw [writeSlot_eq, slot_eq, h]

/-- The end before the write is the instance's end, when it is not empty. -/
theorem writeE_of_nonempty (F : Fifo) (t : Int) (h : F.length.toNat ≠ 0) : writeE F t = F.endTime := by
  simp [writeE, writeO, h, Fifo.endTime]

/-! ## The storage after a write -/

theorem mem_dataCells {F : Fifo} {C : Nat} {n t : Int} {data : List Sample} {p : Nat × Sample}
    (h : p ∈ dataCells F C n t data) : ∃ i : Nat, i < data.length ∧ p.1 = writeSlot F C n t (t + i) ∧ data[i]? = some p.2 := by
  obtain ⟨⟨v, i⟩, hq, rfl⟩ := List.mem_map.1 h
  have := List.mem_zipIdx_iff_getElem?.1 hq
  exact ⟨i, (List.getElem?_eq_some_iff.1 this).1, rfl, this⟩

theorem dataCells_mem {F : Fifo} {C : Nat} {n t : Int} {data : List Sample} {i : Nat} {v : Sample}
    (h : data[i]? = some v) : (writeSlot F C n t (t + i), v) ∈ dataCells F C n t data :=
  List.mem_map.2 ⟨(v, i), List.mem_zipIdx_iff_getElem?.2 h, rfl⟩

theorem mem_zeroCells {F : Fifo} {C : Nat} {n t : Int} {p : Nat × Sample} (h : p ∈ zeroCells F C n t) :
    ∃ s : Int, writeFirstNew F C n t ≤ s ∧ s < writeE2 F n t ∧ p = (writeSlot F C n t s, 0) := by
  obtain ⟨j, hj, rfl⟩ := List.mem_map.1 h
  have := List.mem_range.1 hj
  exact ⟨_, by omega, by omega, rfl⟩

theorem zeroCells_mem {F : Fifo} {C : Nat} {n t s : Int} (h1 : writeFirstNew F C n t ≤ s) (h2 : s < writeE2 F n t) :
    (writeSlot F C n t s, 0) ∈ zeroCells F C n t := by
  refine List.mem_map.2 ⟨(s - writeFirstNew F C n t).toNat, List.mem_range.2 (by omega), ?_⟩
  have : writeFirstNew F C n t + ((s - writeFirstNew F C n t).toNat : Int) = s := by omega
  simp only [this]

/-- Distinct samples of one write go to distinct slots. -/
theorem dataCells_distinct (F : Fifo) (C : Nat) (hC : 1 ≤ C) (n t : Int) (data : List Sample) (h : data.length ≤ C) :
    (dataCells F C n t data).Pairwise fun p q => p.1 ≠ q.1 := by
  rw [dataCells, List.pairwise_map, List.pairwise_iff_getElem]
  intro i j hi hj hij he
  simp only [List.length_zipIdx] at hi hj
  simp only [List.getElem_zipIdx, Nat.zero_add] at he
  have := writeSlot_inj F C hC n t _ _ he (by omega) (by omega)
  omega

/-- Distinct timestamps of the zero fill go to distinct slots. -/
theorem zeroCells_distinct {F : Fifo} {C : Nat} {n t : Int} (h : WriteOk F C n t) :
    (zeroCells F C n t).Pairwise fun p q => p.1 ≠ q.1 := by
  have hb := h.bounds
  have hl : writeFirstNew F C n t = max (writeE F t) (writeO2 F C n t) := rfl
  rw [zeroCells, List.pairwise_map, List.pairwise_iff_getElem]
  intro i j hi hj hij he
  simp only [List.length_range] at hi hj
  simp only [List.getElem_range] at he
  have := writeSlot_inj F C h.one_le n t _ _ he (by omega) (by omega)
  omega

/-! ## An instance that holds nothing, and one that has been read -/

/-- An empty instance meets the invariant. -/
theorem emptyFifo_inv (c : Config) (C : Nat) (hC : 1 ≤ C) (b : Bool) :
    Fifo.Inv c C (emptyFifo b) := by
  have hend : (emptyFifo b).endTime = 0 := rfl
  refine ⟨Nat.zero_le C, ?_, by rw [hend]; decide, List.Pairwise.nil, fun p hp => absurd hp List.not_mem_nil, ?_, ?_⟩
  · exact hC
  · intro k hk
    exact absurd hk (Nat.not_lt_zero k)
  · intro ho
    have : b = false := ho
    rw [this]

/-- What a read needs of its instance and operands. -/
structure ReadOk (F : Fifo) (m t : Int) : Prop where
  len : F.length.toNat ≤ 2147483647
  fin : F.endTime ≤ maxTimestamp
  m_nonneg : 0 ≤ m
  after : F.origin.toInt ≤ t
  before : t < F.endTime

/-- The number of samples returned is `min(m, E - t)`. -/
theorem ReadOk.count {F : Fifo} {m t : Int} (h : ReadOk F m t) : (readCount F m t : Int) = min m (F.endTime - t) := by
  obtain ⟨h1, h2, h3, h4, h5⟩ := h
  simp only [readCount]
  omega

/-- The origin field after a read. -/
theorem consumed_origin {F : Fifo} {m t : Int} (h : ReadOk F m t) :
    (F.consumed m t).origin.toInt = t + readCount F m t := by
  have hc := h.count
  obtain ⟨h1, h2, h3, h4, h5⟩ := h
  have := toInt_ge F.origin
  have hm : maxTimestamp = 9223372036854775807 := rfl
  simp only [Fifo.consumed, BitVec.toInt_ofInt]
  apply Int.bmod_eq_of_le <;> omega

/-- The length field after a read. -/
theorem consumed_length {F : Fifo} {m t : Int} (h : ReadOk F m t) :
    ((F.consumed m t).length.toNat : Int) = F.endTime - (t + readCount F m t) := by
  have hc := h.count
  obtain ⟨h1, h2, h3, h4, h5⟩ := h
  have he : F.endTime = F.origin.toInt + F.length.toNat := rfl
  simp only [Fifo.consumed, BitVec.toNat_ofInt]
  rw [Int.emod_eq_of_lt (by omega) (by omega)]
  omega

/-- A read does not move the end (40_fifo.md R156). -/
theorem consumed_endTime {F : Fifo} {m t : Int} (h : ReadOk F m t) : (F.consumed m t).endTime = F.endTime := by
  have e : (F.consumed m t).endTime = (F.consumed m t).origin.toInt + (F.consumed m t).length.toNat := rfl
  rw [e, consumed_origin h, consumed_length h]
  ring

@[simp] theorem consumed_wcur (F : Fifo) (m t : Int) : (F.consumed m t).wcur = F.wcur := rfl

@[simp] theorem consumed_isOpen (F : Fifo) (m t : Int) : (F.consumed m t).isOpen = F.isOpen := rfl

@[simp] theorem written_isOpen (F : Fifo) (C : Nat) (n t : Int) (data : List Sample) :
    (F.written C n t data).isOpen = F.isOpen := rfl

/-- A read does not move a sample that stays live. -/
theorem consumed_slot {F : Fifo} {C : Nat} {m t : Int} (h : ReadOk F m t) (s : Int) :
    (F.consumed m t).slot C s = F.slot C s := by
  rw [slot_eq, slot_eq, consumed_endTime h, consumed_wcur]

/-! ## What a FIFO.WRITE with status OK does -/

/-- The capacities lie in the range of 00_scope.md R13. -/
theorem capacity_wf (s : State) (f : FifoSel) (h : s.cfg.wf) : 1 ≤ s.capacity f ∧ s.capacity f ≤ 2147483647 := by
  cases f
  · exact h.1
  · exact h.2.1

/-- The origin before the write, with the emptiness test on the field. -/
theorem writeO_eq (F : Fifo) (t : Int) : (if F.length = 0#32 then t else F.origin.toInt) = writeO F t := by
  unfold writeO
  have : F.length = 0#32 ↔ F.length.toNat = 0 := by
    rw [← BitVec.toNat_inj]; simp
  simp [this]

/-- A write whose checks pass meets `WriteOk`, in an instance that meets its invariant. -/
theorem writeOk_of_checks {F : Fifo} {c : Config} {C : Nat} {n t : Int} (hC : 1 ≤ C ∧ C ≤ 2147483647) (h : Fifo.Inv c C F)
   (h0 : 0 ≤ n) (h1 : n ≤ C) (h2 : t + n ≤ maxTimestamp) (ts : Timestamp) (ht : ts.toInt = t) (h3 : writeO F t ≤ t) : WriteOk F C n t :=
 ⟨hC.1, hC.2, h.1, h.2.1, h.2.2.1, h0, h1, ht ▸ toInt_ge ts, h2, h3⟩

/-- A FIFO.WRITE that passes its checks: the instance written, the diagnostics, the response, and nothing else (40_fifo.md R144, R148). -/
theorem exec_fifoWrite_ok (f : FifoSel) (count : Word) (ts : Timestamp) (data : List Sample) (s : State)
    (h1 : (s.fifo f).isOpen = true) (h2 : 0 ≤ count.toInt) (h3 : count.toInt ≤ s.capacity f)
    (h4 : ts.toInt + count.toInt ≤ maxTimestamp) (h5 : writeO (s.fifo f) ts.toInt ≤ ts.toInt) :
    exec (.fifoWrite f count ts data) s = .next
      ((s.setFifo f ((s.fifo f).written (s.capacity f) count.toInt ts.toInt data)).after
        ((if flagOvw (s.fifo f) count.toInt ts.toInt then [.diag .overwrite] else []) ++
          (if flagOvf (s.fifo f) (s.capacity f) count.toInt ts.toInt then [.diag .overflow] else []) ++
          [.rsp ⟨.ok, writeFlags (s.fifo f) (s.capacity f) count.toInt ts.toInt, count, [], []⟩])) := by
  have e1 : ¬ ((s.fifo f).isOpen = false) := by simp [h1]
  have e2 : ¬ (signedWord count < 0 ∨ signedWord count > s.capacity f) := by simp only [signedWord]; omega
  have e3 : ¬ (signedTimestamp ts + signedWord count > maxTimestamp) := by simp only [signedWord, signedTimestamp]; omega
  have e4 : ¬ (signedTimestamp ts < writeO (s.fifo f) (signedTimestamp ts)) := by simp only [signedTimestamp]; omega
  refine ((if_neg e1).trans ((if_neg e2).trans ((if_neg e3).trans (if_neg e4)))).trans ?_
  simp only [signedWord, signedTimestamp]
  generalize (s.fifo f).written _ _ _ _ = G
  generalize flagOvw _ _ _ = b1
  generalize flagOvf _ _ _ _ = b2
  cases f <;> cases b1 <;> cases b2 <;>
    simp [State.after, State.setFifo, State.respond, State.emit, State.emitDiagIf, State.emitDiag, List.append_assoc]

/-- A slot the write gives to a datum holds that datum. -/
theorem read_written_data {F : Fifo} {C : Nat} {n t : Int} (h : WriteOk F C n t) (data : List Sample)
    (hd : (data.length : Int) = n) {i : Nat} (hi : i < data.length) :
    Memory.read (F.written C n t data).store (writeSlot F C n t (t + i)) = data[i]? := by
  have hl : data.length ≤ C := by have := h.n_le; omega
  have e : data[i]? = some data[i] := List.getElem?_eq_getElem hi
  rw [e]
  exact read_writeAll_mem _ _ _ (dataCells_distinct F C h.one_le n t data hl) (dataCells_mem e)

/-- No datum goes to the slot of a live timestamp outside the write's span. -/
theorem data_slot_ne {F : Fifo} {C : Nat} {n t : Int} (h : WriteOk F C n t) (data : List Sample)
    (hd : (data.length : Int) = n) {x : Int} (h1 : writeO2 F C n t ≤ x) (h2 : x < writeE2 F n t) (h3 : ¬ (t ≤ x ∧ x < t + n))
    (p : Nat × Sample) (hp : p ∈ dataCells F C n t data) : p.1 ≠ writeSlot F C n t x := by
  obtain ⟨i, hi, e, _⟩ := mem_dataCells hp
  rw [e]
  intro he
  have hb := h.bounds
  have hl : writeL2 F C n t = writeE2 F n t - writeO2 F C n t := rfl
  have := writeSlot_inj F C h.one_le n t _ _ he (by omega) (by omega)
  omega

/-- The slot of a live timestamp in the gap holds zero. -/
theorem read_written_zero {F : Fifo} {C : Nat} {n t : Int} (h : WriteOk F C n t) (data : List Sample)
    (hd : (data.length : Int) = n) {x : Int} (h1 : writeO2 F C n t ≤ x) (h2 : x < writeE2 F n t) (h3 : ¬ (t ≤ x ∧ x < t + n))
    (h4 : writeE F t ≤ x) : Memory.read (F.written C n t data).store (writeSlot F C n t x) = some 0 := by
  refine (read_writeAll_other _ _ _ (data_slot_ne h data hd h1 h2 h3)).trans ?_
  have : writeFirstNew F C n t ≤ x := by unfold writeFirstNew; omega
  exact read_writeAll_mem _ _ (_, 0) (zeroCells_distinct h) (zeroCells_mem this h2)

/-- The slot of a retained timestamp outside the write's span holds what it held. -/
theorem read_written_old {F : Fifo} {C : Nat} {n t : Int} (h : WriteOk F C n t) (data : List Sample)
    (hd : (data.length : Int) = n) {x : Int} (h1 : writeO2 F C n t ≤ x) (h2 : x < writeE2 F n t) (h3 : ¬ (t ≤ x ∧ x < t + n))
    (h4 : x < writeE F t) : Memory.read (F.written C n t data).store (writeSlot F C n t x) = Memory.read F.store (F.slot C x) := by
  refine (read_writeAll_other _ _ _ (data_slot_ne h data hd h1 h2 h3)).trans ?_
  have hb := h.bounds
  refine (read_writeAll_other _ _ _ fun p hp => ?_).trans ?_
  · obtain ⟨s, hs1, hs2, rfl⟩ := mem_zeroCells hp
    intro he
    unfold writeFirstNew at hs1
    have hl : writeL2 F C n t = writeE2 F n t - writeO2 F C n t := rfl
    have := writeSlot_inj F C h.one_le n t _ _ he (by omega) (by omega)
    omega
  · rw [writeSlot_old]
    apply writeE_of_nonempty
    intro h0
    have : writeE F t = writeO F t := by simp [writeE, h0]
    omega

/-- The sample a FIFO holds after a write, for a timestamp of the new window. -/
theorem sampleAt_written {F : Fifo} {C : Nat} {n t : Int} (h : WriteOk F C n t) (data : List Sample) {x : Int}
    (h1 : writeO2 F C n t ≤ x) (h2 : x < writeE2 F n t) :
    (F.written C n t data).sampleAt C x = Memory.read (F.written C n t data).store (writeSlot F C n t x) := by
  unfold Fifo.sampleAt
  rw [written_origin h, written_endTime h, written_slot h, if_pos ⟨h1, h2⟩]

/-- Every live timestamp's slot holds a value (10_state.md R36). -/
theorem live_sampleAt {F : Fifo} {C : Nat} (h : F.live C) {x : Int} (h1 : F.origin.toInt ≤ x) (h2 : x < F.endTime) :
    (Memory.read F.store (F.slot C x)).isSome = true := by
  unfold Fifo.endTime at h2
  have := h (x - F.origin.toInt).toNat (by omega)
  rwa [show F.origin.toInt + ((x - F.origin.toInt).toNat : Int) = x by omega] at this

/-- A timestamp of the new window before the old end was live before. -/
theorem old_bounds {F : Fifo} {C : Nat} {n t : Int} (h : WriteOk F C n t) {x : Int} (h1 : writeO2 F C n t ≤ x) (h2 : x < writeE F t) :
    F.origin.toInt ≤ x ∧ x < F.endTime := by
  have hb := h.bounds
  have h0 : F.length.toNat ≠ 0 := by
    intro h0
    have : writeE F t = writeO F t := by simp [writeE, h0]
    omega
  have := writeE_of_nonempty F t h0
  have h3 : writeO F t = F.origin.toInt := by simp [writeO, h0]
  omega

/-- A write keeps the invariant of its instance. -/
theorem written_inv {c : Config} {F : Fifo} {C : Nat} {n t : Int} (h : WriteOk F C n t) (data : List Sample)
    (hd : (data.length : Int) = n) (hi : Fifo.Inv c C F) (ho : F.isOpen = true) (hw : ∀ v ∈ data, v < 2 ^ c.sampleBits) :
    Fifo.Inv c C (F.written C n t data) := by
  have hb := h.bounds
  have h0 : (0 : Int) < C := by have := h.one_le; omega
  refine ⟨?_, ?_, ?_, written_store_wf F C n t data hi.2.2.2.1, ?_, ?_, ?_⟩
  · have := written_length h data; omega
  · have h2 : writeWc2 F C n t < C := Int.emod_lt_of_pos _ h0
    have := written_wcur h data; omega
  · rw [written_endTime h]; omega
  · intro p hp
    rcases mem_writeAll _ _ p hp with hp | hp
    · obtain ⟨i, hi', e, hv⟩ := mem_dataCells hp
      rw [e, writeSlot_eq]
      exact ⟨slotNat_lt C h.one_le _, hw _ (List.mem_of_getElem? hv)⟩
    · rcases mem_writeAll _ _ p hp with hp | hp
      · obtain ⟨s, _, _, rfl⟩ := mem_zeroCells hp
        simp only [writeSlot_eq]
        exact ⟨slotNat_lt C h.one_le _, Nat.two_pow_pos _⟩
      · exact hi.2.2.2.2.1 p hp
  · intro k hk
    have hl := written_length h data
    have hl2 : writeL2 F C n t = writeE2 F n t - writeO2 F C n t := rfl
    rw [written_slot h, written_origin h]
    have hx1 : writeO2 F C n t ≤ writeO2 F C n t + k := by omega
    have hx2 : writeO2 F C n t + k < writeE2 F n t := by omega
    generalize writeO2 F C n t + (k : Int) = x at hx1 hx2
    by_cases c1 : t ≤ x ∧ x < t + n
    · have := read_written_data h data hd (i := (x - t).toNat) (by omega)
      rw [show t + ((x - t).toNat : Int) = x by omega] at this
      rw [this, List.getElem?_eq_getElem (by omega)]; rfl
    · by_cases c2 : x < writeE F t
      · rw [read_written_old h data hd hx1 hx2 c1 c2]
        have := old_bounds h hx1 c2
        exact live_sampleAt hi.2.2.2.2.2.1 this.1 this.2
      · rw [read_written_zero h data hd hx1 hx2 c1 (by omega)]; rfl
  · intro hc; rw [written_isOpen, ho] at hc; cases hc

/-! ## What a FIFO.READ inside the window does -/

/-- A FIFO.READ inside the window: the instance consumed, one draw, the response, and nothing else (40_fifo.md R153, R156). -/
theorem exec_fifoRead_ok (f : FifoSel) (maxCount : Word) (ts : Timestamp) (s : State)
    (h1 : (s.fifo f).isOpen = true) (h2 : 0 ≤ maxCount.toInt) (h3 : (s.fifo f).origin.toInt ≤ ts.toInt)
    (h4 : ts.toInt < (s.fifo f).endTime) :
    exec (.fifoRead f maxCount ts) s = .next
      { s.setFifo f ((s.fifo f).consumed maxCount.toInt ts.toInt) with
        draws := s.draws + 1,
        out := s.out ++ [okRsp (readCount (s.fifo f) maxCount.toInt ts.toInt) []
          (readSpan s.cfg s.draws (s.fifo f) (s.capacity f) maxCount.toInt ts.toInt)] } := by
  have e1 : ¬ ((s.fifo f).isOpen = false) := by simp [h1]
  have e2 : ¬ (signedWord maxCount < 0) := Int.not_lt.2 h2
  have e3 : ¬ (signedTimestamp ts < (s.fifo f).origin.toInt) := Int.not_lt.2 h3
  have e4 : ¬ (signedTimestamp ts ≥ (s.fifo f).endTime) := Int.not_le.2 h4
  refine ((if_neg e1).trans ((if_neg e2).trans ((if_neg e3).trans (if_neg e4)))).trans ?_
  cases f <;> rfl

/-- A read inside the window returns the samples the FIFO holds, whatever the draw. -/
theorem readSpan_get (c : Config) (dr : Nat) {F : Fifo} {C : Nat} {m t : Int} (h : ReadOk F m t) (hl : F.live C) (i : Nat)
    (hi : i < readCount F m t) : F.sampleAt C (t + i) = (readSpan c dr F C m t)[i]? := by
  have hc := h.count
  obtain ⟨a1, a2, a3, a4, a5⟩ := h
  have hb : F.origin.toInt ≤ t + i ∧ t + i < F.endTime := by omega
  obtain ⟨v, hv⟩ := Option.isSome_iff_exists.1 (live_sampleAt hl hb.1 hb.2)
  rw [Fifo.sampleAt, if_pos hb, hv, readSpan, List.getElem?_map, List.getElem?_range hi]
  simp only [Option.map_some, sampleRead, hv, Option.getD_some]

/-- A read keeps the invariant of its instance. -/
theorem consumed_inv {c : Config} {F : Fifo} {C : Nat} {m t : Int} (h : ReadOk F m t) (hi : Fifo.Inv c C F) (ho : F.isOpen = true) :
    Fifo.Inv c C (F.consumed m t) := by
  have hc := h.count
  have he : F.endTime = F.origin.toInt + F.length.toNat := rfl
  obtain ⟨i1, i2, i3, i4, i5, i6, i7⟩ := hi
  have h1 := consumed_length h
  have h2 := h.after
  have h3 := h.m_nonneg
  have h4 := h.before
  refine ⟨by omega, i2, by rw [consumed_endTime h]; exact i3, i4, i5, ?_, ?_⟩
  · intro k hk
    rw [consumed_slot h, consumed_origin h, consumed_store]
    exact live_sampleAt i6 (by omega) (by omega)
  · intro hc; rw [consumed_isOpen, ho] at hc; cases hc

def OutOk (s : State) (os : List Output) : Prop := ∀ o ∈ os, outputOk s.cfg o = true

end Sys2Proof.Machine
end

