-- ==== Sys2Proof/Laws/PerInstr.lean ====
section
/-! SUPPORT. The families of statements made per instruction. `HeaderMatchesRow`: the header the encoder writes for an instruction
matches that instruction's row of spec/opcode_table.json, and the request has the operand words of the row's format. -/

namespace Sys2Proof.Laws.HeaderMatchesRow

open Sys2Proof

/-- The encoded header under the row's `mask` is the row's `match` (30_encoding.md R101, R105, R110). -/
def Statement (i : Instr) : Prop :=
  ∃ (h : Word) (ws : List Word), (encode i).words = h :: ws ∧ h &&& rowMask i.opcode = rowMatch i.opcode ∧
    ws.length = i.opcode.format.operandWords

/-- A header whose opcode byte and zero byte are right, under a mask that frees `A` and `B`. -/
theorem burst_header (op a b : Byte) : header op a b 0#8 &&& 0xFF0000FF#32 = header op 0#8 0#8 0#8 := by
  rw [show (0xFF0000FF#32 : Word) = header 0xFF#8 0#8 0#8 0xFF#8 by decide, header_and]
  have h : ∀ x : Byte, x &&& 0xFF#8 = x := by decide
  rw [h, BitVec.and_zero, BitVec.and_zero, BitVec.zero_and]

/-- A header with a FIFO selector, under a mask that frees the selector's bit. -/
theorem fifo_header (o : Opcode) (f : FifoSel) (h : rowMask o = 0xFFFEFFFF#32) :
    header o.byte (fifoSelByte f) 0#8 0#8 &&& rowMask o = rowMatch o := by
  cases o <;> first | exact absurd h (by decide) | (cases f <;> decide)

/-- A header with a command id, under a mask that frees `A`. -/
theorem cmd_header (o : Opcode) (k : Command) (h : rowMask o = 0xFF00FFFF#32) :
    header o.byte k.id 0#8 0#8 &&& rowMask o = rowMatch o := by
  cases o <;> first | exact absurd h (by decide) | (cases k <;> decide)

/-- A header with no field but the opcode. -/
theorem plain_header (o : Opcode) : header o.byte 0#8 0#8 0#8 &&& rowMask o = rowMatch o := by cases o <;> decide

theorem fifoOpen (f : FifoSel) : Statement (.fifoOpen f) :=
  ⟨_, _, rfl, fifo_header _ f rfl, rfl⟩

theorem fifoClose (f : FifoSel) : Statement (.fifoClose f) :=
  ⟨_, _, rfl, fifo_header _ f rfl, rfl⟩

theorem fifoWrite (f : FifoSel) (n : Word) (t : Timestamp) (data : List Sample) : Statement (.fifoWrite f n t data) :=
  ⟨_, _, rfl, fifo_header _ f rfl, rfl⟩

theorem fifoRead (f : FifoSel) (m : Word) (t : Timestamp) : Statement (.fifoRead f m t) :=
  ⟨_, _, rfl, fifo_header _ f rfl, rfl⟩

theorem fifoStatus (f : FifoSel) : Statement (.fifoStatus f) :=
  ⟨_, _, rfl, fifo_header _ f rfl, rfl⟩

theorem clkHeartbeat (v : Word) : Statement (.clkHeartbeat v) :=
  ⟨_, _, rfl, plain_header _, rfl⟩

theorem clkAdvance : Statement (.clkAdvance) :=
  ⟨_, _, rfl, plain_header _, rfl⟩

theorem clkTimeout : Statement (.clkTimeout) :=
  ⟨_, _, rfl, plain_header _, rfl⟩

theorem clkStatus : Statement (.clkStatus) :=
  ⟨_, _, rfl, plain_header _, rfl⟩

theorem encDl (ts g : Byte) (fn : Word) (bits : List Byte) : Statement (.encDl ts g fn bits) :=
  ⟨_, _, rfl, (burst_header _ _ _).trans ((burst_header _ 0#8 0#8).symm.trans (plain_header .encDl)), rfl⟩

theorem decUl (d : List Byte) : Statement (.decUl d) :=
  ⟨_, _, rfl, plain_header _, rfl⟩

theorem decClock (d : List Byte) : Statement (.decClock d) :=
  ⟨_, _, rfl, plain_header _, rfl⟩

theorem encCmd (k : Command) (a b : Word) : Statement (.encCmd k a b) :=
  ⟨_, _, rfl, cmd_header _ k rfl, rfl⟩

theorem sessSendCmd (k : Command) (a b : Word) : Statement (.sessSendCmd k a b) :=
  ⟨_, _, rfl, cmd_header _ k rfl, rfl⟩

theorem sessSendBurst (ts g : Byte) (fn : Word) (bits : List Byte) : Statement (.sessSendBurst ts g fn bits) :=
  ⟨_, _, rfl, (burst_header _ _ _).trans ((burst_header _ 0#8 0#8).symm.trans (plain_header .sessSendBurst)), rfl⟩

theorem rxClock (d : List Byte) : Statement (.rxClock d) :=
  ⟨_, _, rfl, plain_header _, rfl⟩

theorem rxCtrl (d : List Byte) : Statement (.rxCtrl d) :=
  ⟨_, _, rfl, plain_header _, rfl⟩

theorem rxData (d : List Byte) : Statement (.rxData d) :=
  ⟨_, _, rfl, plain_header _, rfl⟩

end Sys2Proof.Laws.HeaderMatchesRow
end

