-- ==== Sys2Proof/Machine/Assembler.lean ====
section
/-! DEFINITION. The assembler line of a request (30_encoding.md R115), in the decimal spelling. The block never reads it. -/

namespace Sys2Proof.Machine

open Sys2Proof

/-- The mnemonic of an opcode (R110). -/
def opcodeMnemonic : Opcode → String
  | .fifoOpen => "FIFO.OPEN"
  | .fifoClose => "FIFO.CLOSE"
  | .fifoWrite => "FIFO.WRITE"
  | .fifoRead => "FIFO.READ"
  | .fifoStatus => "FIFO.STATUS"
  | .clkHeartbeat => "CLK.HEARTBEAT"
  | .clkAdvance => "CLK.ADVANCE"
  | .clkTimeout => "CLK.TIMEOUT"
  | .clkStatus => "CLK.STATUS"
  | .encDl => "ENC.DL"
  | .decUl => "DEC.UL"
  | .decClock => "DEC.CLOCK"
  | .encCmd => "ENC.CMD"
  | .sessSendCmd => "SESS.SENDCMD"
  | .sessSendBurst => "SESS.SENDBURST"
  | .rxClock => "RX.CLOCK"
  | .rxCtrl => "RX.CTRL"
  | .rxData => "RX.DATA"

/-- A number in decimal, with `-` first if it is negative. Forty places hold every operand but a very wide sample. -/
def decimalChars (a : Int) : List Char :=
  (if a < 0 then ['-'] else []) ++ (decimalDigits 39 a.natAbs).map fun b => Char.ofNat b.toNat

/-- Operands separated by commas. -/
def commas (xs : List (List Char)) : List Char := List.intercalate [',', ' '] xs

/-- Payload items in braces (characters 123 and 125). -/
def braced (items : List Nat) : List Char :=
  Char.ofNat 123 :: commas (items.map fun x => decimalChars x) ++ [Char.ofNat 125]

/-- `rx` or `tx` (R111). -/
def selectorChars : FifoSel → List Char
  | .rx => ['r', 'x']
  | .tx => ['t', 'x']

/-- The operands of a request, in the order of R115. Both argument words of a command are written. -/
def operandChars : Instr → List (List Char)
  | .fifoOpen f => [selectorChars f]
  | .fifoClose f => [selectorChars f]
  | .fifoWrite f n t data => [selectorChars f, decimalChars (signedWord n), decimalChars (signedTimestamp t), braced data]
  | .fifoRead f m t => [selectorChars f, decimalChars (signedWord m), decimalChars (signedTimestamp t)]
  | .fifoStatus f => [selectorChars f]
  | .clkHeartbeat v => [decimalChars (unsignedWord v)]
  | .clkAdvance => []
  | .clkTimeout => []
  | .clkStatus => []
  | .encDl ts g fn bits => [decimalChars (unsignedByte ts), decimalChars (unsignedWord fn), decimalChars g.toInt, braced (itemsOf bits)]
  | .decUl d => [braced (itemsOf d)]
  | .decClock d => [braced (itemsOf d)]
  | .encCmd k a b => [commandName k, decimalChars (signedWord a), decimalChars (signedWord b)]
  | .sessSendCmd k a b => [commandName k, decimalChars (signedWord a), decimalChars (signedWord b)]
  | .sessSendBurst ts g fn bits =>
    [decimalChars (unsignedByte ts), decimalChars (unsignedWord fn), decimalChars g.toInt, braced (itemsOf bits)]
  | .rxClock d => [braced (itemsOf d)]
  | .rxCtrl d => [braced (itemsOf d)]
  | .rxData d => [braced (itemsOf d)]

/-- The line of a request: the mnemonic first, then the operands separated by commas (R115). -/
def assemblerLine (i : Instr) : List Char :=
  match operandChars i with
  | [] => (opcodeMnemonic i.opcode).toList
  | ops => (opcodeMnemonic i.opcode).toList ++ ' ' :: commas ops

end Sys2Proof.Machine
end

