-- ==== Sys2Proof/Tests/Slice0.lean ====
section
/-! SUPPORT. The model's own tests. Expected values come from spec/95_test_vectors.md (its row is named beside each test), from the
worked encodings of 30_encoding.md R117, or from a rule worked by hand; then a witness for every statement that has hypotheses. -/

namespace Sys2Proof.Tests

-- One thread at a time: a thread for each test takes more memory than the check allows.
set_option Elab.async false

open Sys2Proof Sys2Proof.Machine

/-! ## Helpers -/

/-- The decoder reads the instruction from the request. -/
def decodesTo (r : Request) (i : Instr) : Bool :=
  match decode Config.reference r with
  | .ok j => j == i
  | .error _ => false

/-- The decoder rejects the request by this check. -/
def rejects (r : Request) (e : Reject) : Bool :=
  match decode Config.reference r with
  | .ok _ => false
  | .error x => x == e

/-- The state after one instruction (the same state if it stopped). -/
def ran (i : Instr) (s : State) : State := (nextOf (exec i s)).getD s

/-- The outputs of one instruction on a state with no history. -/
def outs (i : Instr) (s : State) : List Output := (ran i s).out

/-- Origin, length and cursor of an instance, as the vectors write it. -/
def shape (F : Fifo) : Int × Nat × Nat := (F.origin.toInt, F.length.toNat, F.wcur.toNat)

/-- Reset, with the receive instance as given. -/
def withRx (F : Fifo) : State := { State.reset with rx := F }

/-- Reset, with the frame-clock unit as given. -/
def withClock (available setupComplete : Bool) (trxFrame currentFrame : Word) : State :=
  { State.reset with available, setupComplete, trxFrame, currentFrame }

/-- Reset, with one request presented. -/
def presenting (r : Request) : State := State.reset.present r

/-- Open, `{100, 4, 4}`, samples 1 2 3 4. -/
def four : Fifo := ⟨true, 100#64, 4#32, 4#32, [(0, 1), (1, 2), (2, 3), (3, 4)]⟩

/-- Open, `{100, 8, 0}`, samples 1 to 8. -/
def eight : Fifo := ⟨true, 100#64, 8#32, 0#32, [(0, 1), (1, 2), (2, 3), (3, 4), (4, 5), (5, 6), (6, 7), (7, 8)]⟩

/-- `n` bytes of one value. -/
def bytes (n : Nat) (b : Byte) : List Byte := List.replicate n b

/-- `U0` of 95_test_vectors.md section 2.4, with byte 0 as given. -/
def uplink (b : Byte) : List Byte :=
  [b, 0x00#8, 0x00#8, 0x00#8, 0x64#8, 0x3C#8, 0xFF#8, 0x80#8] ++ bytes 148 0x7F#8 ++ bytes 2 0x00#8

/-- A text and its terminator. -/
def text (t : String) : List Byte := ascii t.toList ++ [0#8]

/-! ## Well-formedness: each check refuses an ill-formed term -/

theorem test_payload_len_refuses_write : WellFormed Config.reference (.fifoWrite .rx 3#32 0#64 [1, 2]) = false := by decide

theorem test_payload_len_refuses_burst : WellFormed Config.reference (.encDl 0#8 0#8 0#32 [1#8]) = false := by decide

theorem test_dgram_len_refuses : WellFormed Config.reference (.rxCtrl (bytes 65536 0#8)) = false := by
  have h : dgramLenOk (.rxCtrl (bytes 65536 0#8)) = false := by
    simp only [dgramLenOk, bytes, List.length_replicate]
    decide
  simp only [WellFormed, h, Bool.and_false, Bool.false_and]

theorem test_item_width_refuses : WellFormed Config.reference (.fifoWrite .rx 1#32 0#64 [4294967296]) = false := by decide

theorem test_wellformed_accepts : WellFormed Config.reference (.fifoWrite .rx 1#32 0#64 [4294967295]) = true := by decide

/-! ## Decoding: one word for every constructor, written out from 30_encoding.md R105 and R110 -/

theorem test_decode_fifo_open : decodesTo ⟨[0x10010000#32], []⟩ (.fifoOpen .tx) = true := by decide

theorem test_decode_fifo_close : decodesTo ⟨[0x11000000#32], []⟩ (.fifoClose .rx) = true := by decide

/-- The worked encoding of R117: FIFO.WRITE tx, 4, 100. -/
theorem test_decode_fifo_write :
    decodesTo ⟨[0x12010000#32, 0x00000004#32, 0x00000000#32, 0x00000064#32], [1, 2, 3, 4]⟩
      (.fifoWrite .tx 4#32 100#64 [1, 2, 3, 4]) = true := by decide

/-- The worked encoding of R117: FIFO.READ rx, 8, -1. -/
theorem test_decode_fifo_read :
    decodesTo ⟨[0x13000000#32, 0x00000008#32, 0xFFFFFFFF#32, 0xFFFFFFFF#32], []⟩
      (.fifoRead .rx 8#32 (BitVec.ofInt 64 (-1))) = true := by decide

/-- The high word of a timestamp comes first (R102). -/
theorem test_decode_timestamp_words :
    decodesTo ⟨[0x13010000#32, 0x00000001#32, 0x00000001#32, 0x00000002#32], []⟩ (.fifoRead .tx 1#32 4294967298#64) = true := by
  decide

theorem test_decode_fifo_status : decodesTo ⟨[0x14010000#32], []⟩ (.fifoStatus .tx) = true := by decide

theorem test_decode_clk_heartbeat : decodesTo ⟨[0x20000000#32, 0x00000064#32], []⟩ (.clkHeartbeat 100#32) = true := by decide

theorem test_decode_clk_advance : decodesTo ⟨[0x21000000#32], []⟩ .clkAdvance = true := by decide

theorem test_decode_clk_timeout : decodesTo ⟨[0x22000000#32], []⟩ .clkTimeout = true := by decide

theorem test_decode_clk_status : decodesTo ⟨[0x23000000#32], []⟩ .clkStatus = true := by decide

/-- Vector E11: timeslot 2, gain -3, frame 123456. -/
theorem test_decode_enc_dl :
    decodesTo ⟨[0x3002FD00#32, 0x0001E240#32], List.replicate 148 1⟩ (.encDl 2#8 0xFD#8 123456#32 (bytes 148 1#8)) = true := by
  decide +kernel

theorem test_decode_dec_ul : decodesTo ⟨[0x31000000#32, 0x00000002#32], [7, 255]⟩ (.decUl [7#8, 255#8]) = true := by decide

theorem test_decode_dec_clock : decodesTo ⟨[0x32000000#32, 0x00000001#32], [73]⟩ (.decClock [73#8]) = true := by decide

/-- The worked encoding of R117: ENC.CMD SETSLOT, 3, 7. -/
theorem test_decode_enc_cmd :
    decodesTo ⟨[0x33080000#32, 0x00000003#32, 0x00000007#32], []⟩ (.encCmd .setSlot 3#32 7#32) = true := by decide

/-- Program P2, step 2: SESS.SENDCMD RXTUNE, 935000. -/
theorem test_decode_sess_sendcmd :
    decodesTo ⟨[0x40010000#32, 0x000E4458#32, 0x00000000#32], []⟩ (.sessSendCmd .rxTune 935000#32 0#32) = true := by decide

/-- Program P2, step 6: SESS.SENDBURST 2, 121, -3. -/
theorem test_decode_sess_sendburst :
    decodesTo ⟨[0x4102FD00#32, 0x00000079#32], List.replicate 148 1⟩
      (.sessSendBurst 2#8 0xFD#8 121#32 (bytes 148 1#8)) = true := by decide +kernel

/-- Program P2, step 4: RX.CLOCK with its 14 bytes. -/
theorem test_decode_rx_clock :
    decodesTo ⟨[0x42000000#32, 0x0000000E#32],
      [0x49, 0x4E, 0x44, 0x20, 0x43, 0x4C, 0x4F, 0x43, 0x4B, 0x20, 0x31, 0x30, 0x30, 0x00]⟩ (.rxClock (text "IND CLOCK 100")) = true := by
  decide

theorem test_decode_rx_ctrl : decodesTo ⟨[0x43000000#32, 0x00000000#32], []⟩ (.rxCtrl []) = true := by decide

theorem test_decode_rx_data : decodesTo ⟨[0x44000000#32, 0x00000001#32], [128]⟩ (.rxData [128#8]) = true := by decide

/-- Vectors E1 to E8: each named check of R113 rejects. -/
theorem test_reject_checks :
    rejects ⟨[0x00000000#32], []⟩ .opAssigned = true ∧ rejects ⟨[0x15000000#32], []⟩ .opAssigned = true ∧
    rejects ⟨[0x10020000#32], []⟩ .aLegal = true ∧ rejects ⟨[0x21000001#32], []⟩ .zZero = true ∧
    rejects ⟨[0x21010000#32], []⟩ .aLegal = true ∧
    rejects ⟨[0x12000100#32, 1#32, 0#32, 0#32], [1]⟩ .bZero = true ∧
    rejects ⟨[0x12000000#32, 3#32, 0#32, 0#32], [1, 2]⟩ .payloadLen = true ∧
    rejects ⟨[0x33090000#32, 0#32, 0#32], []⟩ .aLegal = true := by decide

/-- Vector E9: `dgram_len` rejects a length word of 65536. -/
theorem test_reject_dgram_len : rejects ⟨[0x42000000#32, 0x00010000#32], []⟩ .dgramLen = true := by decide

/-- The model's own checks (log 9). -/
theorem test_reject_model_checks :
    rejects ⟨[], []⟩ .noHeader = true ∧ rejects ⟨[0x20000000#32], []⟩ .operandWords = true ∧
    rejects ⟨[0x31000000#32, 1#32], [256]⟩ .itemWidth = true := by decide

/-- The host's reading of a number: the header in bits 31..0, the operand words above it, the items above them. -/
theorem test_table_word :
    decodeTableWord 32 0x21000000 = some .clkAdvance ∧ decodeTableWord 64 0x0000006420000000 = some (.clkHeartbeat 100#32) ∧
    decodeTableWord 160 0x000000AA000000640000000000000001_12010000 = some (.fifoWrite .tx 1#32 100#64 [0xAA]) ∧
    decodeTableWord 32 0x15000000 = none := by decide

/-- The first step after reset with a word placed runs that word. -/
theorem test_first_step_runs_the_word :
    (nextOf (step (State.reset.withFetchWord 32 0x10000000))).map (fun t => (t.rx.isOpen, t.out)) =
      some (true, [okRsp 0 [] []]) := by decide

/-! ## The instructions, at most two tests each -/

/-- Vector F1, on an instance that holds samples. -/
theorem test_fifo_open : (ran (.fifoOpen .rx) (withRx four)).rx = ⟨true, 0#64, 0#32, 0#32, []⟩ := by decide

/-- Vector F18. -/
theorem test_fifo_close : (ran (.fifoClose .rx) (withRx eight)).rx = ⟨false, 0#64, 0#32, 0#32, []⟩ := by decide

/-- Vector F22: a far gap; only the retained part is written, and the write evicts (flags OVF and ZF). -/
theorem test_fifo_write_far_gap :
    let t := ran (.fifoWrite .rx 2#32 1000#64 [25, 26]) (withRx four)
    shape t.rx = (994, 8, 6) ∧ t.rx.store = [(0, 0), (1, 0), (2, 0), (3, 0), (4, 25), (5, 26), (6, 0), (7, 0)] ∧
    t.out = [.diag .overflow, .rsp ⟨.ok, 0x05#8, 2#32, [], []⟩] := by decide

/-- Vector F23: an overlap that also evicts, across the physical end (flags OVF and OVW). -/
theorem test_fifo_write_overlap :
    let t := ran (.fifoWrite .rx 4#32 106#64 [87, 88, 89, 90]) (withRx eight)
    shape t.rx = (102, 8, 2) ∧ t.rx.store = [(0, 89), (1, 90), (2, 3), (3, 4), (4, 5), (5, 6), (6, 87), (7, 88)] ∧
    t.out = [.diag .overwrite, .diag .overflow, .rsp ⟨.ok, 0x03#8, 4#32, [], []⟩] := by decide

/-- Vector F24: a wrapping read after vector F23. -/
theorem test_fifo_read_wraps :
    let t := ran (.fifoRead .rx 8#32 102#64)
      (withRx ⟨true, 102#64, 8#32, 2#32, [(0, 89), (1, 90), (2, 3), (3, 4), (4, 5), (5, 6), (6, 87), (7, 88)]⟩)
    shape t.rx = (110, 0, 2) ∧ t.out = [okRsp 8 [] [3, 4, 5, 6, 87, 88, 89, 90]] := by decide

/-- Vector F12: a read of no samples inside the window still moves the origin. -/
theorem test_fifo_read_nothing_moves_origin :
    let t := ran (.fifoRead .rx 0#32 102#64) (withRx four)
    shape t.rx = (102, 2, 4) ∧ t.out = [okRsp 0 [] []] := by decide

/-- Vector F16's form: origin -2 shows the high word first. -/
theorem test_fifo_status :
    outs (.fifoStatus .rx) (withRx { four with origin := BitVec.ofInt 64 (-2) }) =
      [okRsp 0 [1#32, 0xFFFFFFFF#32, 0xFFFFFFFE#32, 4#32, 4#32, 8#32] []] := by decide

/-- Vector K2: sixteen CONTROL datagrams of 250 bytes in all (program P2), no `FRAME_IND`, value 120. -/
theorem test_heartbeat_setup :
    let t := ran (.clkHeartbeat 100#32) State.reset
    (t.available, t.setupComplete, t.trxFrame, t.currentFrame) = (true, true, 100#32, 120#32) ∧ t.out.length = 17 ∧
    (t.out.map fun o => match o with | .trx .control d => d.length | _ => 0) =
      [13, 18, 18, 13, 15, 12, 17, 16, 16, 16, 16, 16, 16, 16, 16, 16, 0] := by decide

/-- Vectors K5 and K6: the exact sum, and the wrapped one under `FRAME_SUM_WRAPS`. -/
theorem test_heartbeat_sum :
    outs (.clkHeartbeat 4294967295#32) (withClock true true 0#32 0#32) = [.up (.frameInd 1527827#32), okRsp 1527827 [] []] ∧
    outs (.clkHeartbeat 4294967295#32)
      { withClock true true 0#32 0#32 with cfg := { Config.reference with frameSumWraps := true } } =
      [.up (.frameInd 19#32), okRsp 19 [] []] := by decide

/-- Vectors K7 and K9: the advance wraps at the modulus. -/
theorem test_advance_wraps :
    (ran .clkAdvance (withClock true true 0#32 2715640#32)).currentFrame = 12#32 ∧
    outs .clkAdvance (withClock true true 0#32 2715628#32) = [okRsp 0 [] []] := by decide

/-- Vector K12. -/
theorem test_timeout :
    let t := ran .clkTimeout (withClock true true 102#32 122#32)
    (t.available, t.setupComplete, t.trxFrame, t.currentFrame) = (false, false, 102#32, 122#32) ∧
    t.out = [.trx .control (text "CMD POWEROFF"), .diag .heartbeatLost, okRsp 0 [] []] := by decide

/-- Vector K15. -/
theorem test_clk_status :
    outs .clkStatus (withClock true true 200#32 220#32) = [okRsp 0 [2#32, 1#32, 1#32, 200#32, 220#32] []] := by decide

/-- Vector C1. -/
theorem test_enc_dl :
    outs (.encDl 2#8 0xFD#8 123456#32 (bytes 148 1#8)) State.reset =
      [okRsp 154 [] ([0x02, 0x00, 0x01, 0xE2, 0x40, 0xFD] ++ List.replicate 148 1)] := by decide +kernel

/-- Vector C4. -/
theorem test_enc_dl_timeslot : outs (.encDl 8#8 0#8 0#32 []) State.reset = [failRsp .invalidArg] := by decide

/-- Vector C12: a signed time of arrival, the soft values, and the two padding bytes ignored. -/
theorem test_dec_ul :
    outs (.decUl ([7#8, 0x00#8, 0x29#8, 0x70#8, 0xFF#8, 0xFF#8, 0x7F#8, 0xFF#8, 0x00#8, 0x80#8, 0xFF#8] ++ bytes 145 0x7F#8 ++
      [0xAA#8, 0xBB#8])) State.reset =
      [okRsp 148 [7#32, 2715903#32, BitVec.ofInt 32 (-255), 32767#32] ([127, 255, 128] ++ List.replicate 145 0)] := by
  decide +kernel

/-- Vector C11: the length is checked before the timeslot. -/
theorem test_dec_ul_order : outs (.decUl (8#8 :: bytes 156 0#8)) State.reset = [failRsp .dropLength] := by decide +kernel

/-- Vectors C15, C17, C19, C21. -/
theorem test_dec_clock_accepts :
    (["IND CLOCK 100", "IND CLOCK 007", "IND CLOCK 4294967295"].map fun t => decClockValue Config.reference (text t)) =
      [some 100#32, some 7#32, some 0xFFFFFFFF#32] ∧
    outs (.decClock (text "IND CLOCK 5" ++ ascii "xyz".toList)) State.reset = [okRsp 0 [5#32] []] := by decide

/-- Vectors C20, C22 to C27, C30, and C28: malformed texts. -/
theorem test_dec_clock_rejects :
    (["IND CLOCK 4294967296", "IND CLOCK ", "ind clock 5", "IND  CLOCK 5", "IND CLOCK -5", "IND CLOCK 5 ", "IND CLOCK +5",
      "IND CLOCK 12a"].all fun t => decClockValue Config.reference (text t) == none) = true ∧
    outs (.decClock []) State.reset = [failRsp .dropMalformed] := by decide

/-- Vector C35: the longest text. -/
theorem test_enc_cmd :
    encCmdBytes .setSlot 0x80000000#32 0x80000000#32 = text "CMD SETSLOT -2147483648 -2147483648" := by decide

/-- Vector C31: unused arguments are ignored. -/
theorem test_enc_cmd_unused :
    outs (.encCmd .powerOff 5#32 6#32) State.reset = [okRsp 13 [] (itemsOf (text "CMD POWEROFF"))] := by decide

/-- Vectors P1 and P2 of section 2.5: the availability gate. -/
theorem test_sendcmd_unavailable :
    outs (.sessSendCmd .rxTune 935000#32 0#32) State.reset = [.diag .refusedCmd, failRsp .refused] ∧
    outs (.sessSendCmd .powerOff 0#32 0#32) State.reset = [.trx .control (text "CMD POWEROFF"), okRsp 13 [] []] := by decide

/-- Vector P7 of section 2.5. -/
theorem test_sendburst :
    outs (.sessSendBurst 2#8 0xFD#8 123456#32 (bytes 148 1#8)) (withClock true true 0#32 0#32) =
      [.trx .data ([0x02#8, 0x00#8, 0x01#8, 0xE2#8, 0x40#8, 0xFD#8] ++ bytes 148 1#8), okRsp 154 [] []] := by decide +kernel

/-- Vectors P5 and P6 of section 2.5: the timeslot before availability. -/
theorem test_sendburst_order :
    outs (.sessSendBurst 8#8 0#8 0#32 []) State.reset = [failRsp .invalidArg] ∧
    outs (.sessSendBurst 0#8 0#8 0#32 []) State.reset = [.diag .refusedBurst, failRsp .refused] := by decide

/-- Vector P9 of section 2.5. -/
theorem test_rx_clock :
    let t := ran (.rxClock (text "IND CLOCK 100")) State.reset
    (t.available, t.setupComplete, t.trxFrame, t.currentFrame, t.out.length) = (true, true, 100#32, 120#32, 17) := by decide

/-- Vector P11 of section 2.5: no setup, nothing changed. -/
theorem test_rx_clock_malformed :
    ran (.rxClock (text "IND CLOCK")) (withClock false false 5#32 25#32) =
      (withClock false false 5#32 25#32).after [.diag .dropMalformed, failRsp .dropMalformed] := by decide

/-- Vector P12 of section 2.5. -/
theorem test_rx_ctrl :
    ran (.rxCtrl (text "RSP POWERON 0")) State.reset = State.reset.after [.diag .ctrlResponse, okRsp 0 [] []] := by decide

/-- Vector P16 of section 2.5: delivered although Unavailable. -/
theorem test_rx_data :
    outs (.rxData (uplink 3#8)) State.reset =
      [.up (.ulBurst ⟨3#8, 100#32, BitVec.ofInt 16 (-60), BitVec.ofInt 16 (-128), bytes 148 0#8⟩), okRsp 148 [] []] := by
  decide +kernel

/-- Vector P15 of section 2.5. -/
theorem test_rx_data_timeslot :
    outs (.rxData (uplink 8#8)) State.reset = [.diag .dropTimeslot, failRsp .dropTimeslot] := by decide +kernel

/-- The lines of the worked encodings of R117, and one with a payload. -/
theorem test_assembler_lines :
    assemblerLine (.fifoRead .rx 8#32 (BitVec.ofInt 64 (-1))) = "FIFO.READ rx, 8, -1".toList ∧
    assemblerLine (.encCmd .setSlot 3#32 7#32) = "ENC.CMD SETSLOT, 3, 7".toList ∧
    assemblerLine .clkAdvance = "CLK.ADVANCE".toList ∧
    assemblerLine (.fifoWrite .tx 2#32 100#64 [10, 0]) = "FIFO.WRITE tx, 2, 100, ".toList ++ braced [10, 0] ∧
    braced [10, 0] = Char.ofNat 123 :: "10, 0".toList ++ [Char.ofNat 125] := by decide

/-! ## Witnesses: a concrete state and operands that meet all hypotheses of a statement together -/

/-- O1, for each format that carries a payload and for one that carries none. -/
theorem witness_decodeOfEncode :
    WellFormed Config.reference (.fifoWrite .tx 2#32 100#64 [1, 4294967295]) = true ∧
    WellFormed Config.reference (.sessSendBurst 255#8 0x80#8 0#32 (bytes 148 255#8)) = true ∧
    WellFormed Config.reference (.rxData (uplink 3#8)) = true ∧
    WellFormed Config.reference (.encCmd .setSlot 3#32 0xFFFFFFFF#32) = true := by decide +kernel

/-- O2. -/
theorem witness_decodedRequest :
    decode Config.reference ⟨[0x12010000#32, 1#32, 0#32, 0x64#32], [4294967295]⟩ =
      .ok (.fifoWrite .tx 1#32 100#64 [4294967295]) := rfl

/-- The payload hypotheses of the worked encodings. -/
theorem witness_workedEncodings :
    (∀ v ∈ [0, 1, 2, 4294967295], v < 2 ^ Config.reference.sampleBits) ∧ (bytes 148 1#8).length = 148 ∧
    (uplink 3#8).length = 158 := by decide +kernel

/-- The first command id outside the table. -/
theorem witness_commandIds : 8 < (9#8 : Byte).toNat ∧ (0x33010000#32, Command.rxTune) ∈
    [(0x33000000#32, Command.powerOff), (0x33010000#32, Command.rxTune)] := by decide

/-- Each way of failing a check of R113, in a request that stands on `REQ`. -/
theorem witness_malformedRequest :
    (presenting ⟨[0x15000000#32], []⟩).req = [⟨[0x15000000#32], []⟩] ∧
    (∀ o ∈ allOpcodes, o.byte ≠ headerOp 0x15000000#32) ∧ headerZ 0x21000001#32 ≠ 0#8 ∧
    (Opcode.byte .fifoWrite = headerOp 0x12000100#32 ∧ Opcode.format .fifoWrite ≠ .burst ∧ headerB 0x12000100#32 ≠ 0#8) ∧
    (Opcode.byte .fifoOpen = headerOp 0x10020000#32 ∧ headerA 0x10020000#32 ≠ 0#8 ∧ headerA 0x10020000#32 ≠ 1#8) ∧
    (Opcode.byte .clkAdvance = headerOp 0x21010000#32 ∧ headerA 0x21010000#32 ≠ 0#8) ∧
    (Opcode.byte .rxCtrl = headerOp 0x43010000#32 ∧ Opcode.format .rxCtrl = .dg ∧ headerA 0x43010000#32 ≠ 0#8) ∧
    (Opcode.byte .encCmd = headerOp 0x33090000#32 ∧ Opcode.format .encCmd = .cmd ∧ 8 < (headerA 0x33090000#32).toNat) ∧
    [1, 2].length ≠ payloadLength .fifoWrite [3#32, 0#32, 0#32] ∧
    (Opcode.format .rxClock = .dg ∧ maxDgram < (operandWord [0x00010000#32] 0).toNat) := by decide

/-- The second clause of the same statement: a request that passes every check, at the largest command id. -/
theorem witness_wellFormedRequest :
    Opcode.byte .encCmd = headerOp 0x33080000#32 ∧ headerZ 0x33080000#32 = 0#8 ∧ headerB 0x33080000#32 = 0#8 ∧
    (headerA 0x33080000#32).toNat ≤ 8 ∧ ([] : List Nat).length = payloadLength .encCmd [3#32, 7#32] ∧
    [3#32, 7#32].length = (Opcode.format .encCmd).operandWords := by decide

/-- A request presented, and what it decodes to. -/
theorem witness_step : ∃ rest,
    (presenting ⟨[0x21000000#32], []⟩).req = ⟨[0x21000000#32], []⟩ :: rest ∧
    decode (presenting ⟨[0x21000000#32], []⟩).cfg ⟨[0x21000000#32], []⟩ = .ok .clkAdvance := ⟨[], rfl, rfl⟩

theorem witness_noRequest : State.reset.req = [] := rfl

/-- A failed operation with its diagnostic: SESS.SENDCMD in Unavailable. -/
theorem witness_failedOperation : ∃ t,
    step (presenting (encode (.sessSendCmd .rxTune 1#32 0#32))) = .next t ∧
    t.out = State.reset.out ++ [.diag .refusedCmd] ++ [.rsp ⟨.refused, 0#8, 0xFFFFFFFC#32, [], []⟩] := ⟨_, rfl, by decide⟩

/-- A failed and a successful operation under a legal configuration, for each status: FIFO.WRITE gives OK, `INVALID_ARG` and
`STALE`, and so on. -/
theorem witness_statuses : State.reset.cfg.wf ∧
    outs (.fifoWrite .rx 8#32 104#64 (List.replicate 8 0)) (withRx four) = [.diag .overflow, .rsp ⟨.ok, 1#8, 8#32, [], []⟩] ∧
    outs (.fifoWrite .rx 9#32 104#64 []) (withRx four) = [failRsp .invalidArg] ∧
    outs (.fifoWrite .rx 0#32 99#64 []) (withRx four) = [failRsp .stale] ∧
    outs (.fifoRead .rx 0#32 99#64) (withRx four) = [failRsp .past] ∧
    outs (.fifoRead .rx 0#32 99#64) State.reset = [failRsp .closed] ∧
    outs (.rxClock []) State.reset = [.diag .dropMalformed, failRsp .dropMalformed] ∧
    outs (.rxData []) State.reset = [.diag .dropLength, failRsp .dropLength] ∧
    (step (presenting ⟨[], []⟩) = .next (State.reset.after [failRsp .illegalOp])) :=
  ⟨by decide, by decide, by decide, by decide, by decide, by decide, by decide, by decide, rfl⟩

/-- FIFO.WRITE sets a flag; another operation ends with a response too. -/
theorem witness_flags : ∃ t u,
    exec (.fifoWrite .rx 1#32 106#64 [9]) (withRx four) = .next t ∧ t.out = [] ++ [] ++ [.rsp ⟨.ok, 4#8, 1#32, [], []⟩] ∧
    exec .clkStatus State.reset = .next u ∧ u.out = [] ++ [] ++ [okRsp 0 [0#32, 0#32, 0#32, 0#32, 0#32] []] :=
  ⟨_, _, rfl, by decide, rfl, by decide⟩

/-- A datagram on DATA and one on CONTROL, each with its response: outputs of two operations. -/
theorem witness_outputs : ∃ t u,
    exec (.sessSendBurst 0#8 0#8 0#32 []) (withClock true true 0#32 0#32) = .next t ∧
    t.out = [] ++ [.trx .data [0#8, 0#8, 0#8, 0#8, 0#8, 0#8], okRsp 154 [] []] ∧
    exec (.sessSendCmd .powerOff 0#32 0#32) State.reset = .next u ∧
    u.out = [] ++ [.trx .control (text "CMD POWEROFF"), okRsp 13 [] []] := ⟨_, _, rfl, by decide, rfl, by decide⟩

/-- A step that answers a next state, from a state that meets the invariant and holds samples. -/
theorem witness_inv : ∃ t,
    Machine.Inv ((withRx four).present (encode (.fifoWrite .rx 1#32 106#64 [9]))) ∧
    step ((withRx four).present (encode (.fifoWrite .rx 1#32 106#64 [9]))) = .next t := ⟨_, by decide, rfl⟩

theorem witness_config : Config.reference.wf ∧ { Config.reference with capRx := 1, capTx := 2147483647, advanceStep := 0 }.wf := by
  decide

/-- FIFO and other operations that answer a next state. -/
theorem witness_units : ∃ t u,
    instrFifo (.fifoRead .rx 1#32 101#64) = some .rx ∧ exec (.fifoRead .rx 1#32 101#64) (withRx four) = .next t ∧
    instrFifo (.clkHeartbeat 1#32) = none ∧ exec (.clkHeartbeat 1#32) (withRx four) = .next u := ⟨_, _, rfl, rfl, rfl, rfl⟩

theorem witness_closed : (State.reset.fifo .tx).isOpen = false := rfl

/-- The five clauses of FIFO.WRITE's checks, each at a boundary: closed; counts -1 and 9 of capacity 8; end `2^63`; one before the
origin of a non-empty instance; and accepted with counts 0 and 8, at the origin, and with end `2^63 - 1`. -/
theorem witness_writeChecks :
    (State.reset.fifo .rx).isOpen = false ∧ four.isOpen = true ∧ (withRx four).capacity .rx = 8 ∧
    (0xFFFFFFFF#32 : Word).toInt < 0 ∧ (8 : Int) < (9#32 : Word).toInt ∧
    (2 : Int) ^ 63 - 1 < (9223372036854775804#64 : Timestamp).toInt + (4#32 : Word).toInt ∧
    (9223372036854775804#64 : Timestamp).toInt + (3#32 : Word).toInt ≤ 2 ^ 63 - 1 ∧
    four.length ≠ 0#32 ∧ (99#64 : Timestamp).toInt < four.origin.toInt ∧ (100#64 : Timestamp).toInt + (0#32 : Word).toInt ≤ 2 ^ 63 - 1 ∧
    four.origin.toInt ≤ (100#64 : Timestamp).toInt ∧ (0 : Int) ≤ (0#32 : Word).toInt ∧ (8#32 : Word).toInt ≤ 8 := by decide

/-- A FIFO.WRITE that passes: in an instance in its ranges, with the largest count at the origin; and, on an empty instance, with the
largest end. -/
theorem witness_writeOk :
    (withRx four).cfg.wf ∧ Fifo.Inv (withRx four).cfg 8 four ∧ four.isOpen = true ∧ (8#32 : Word).toInt ≤ 8 ∧
    (100#64 : Timestamp).toInt + (8#32 : Word).toInt ≤ maxTimestamp ∧
    (if four.length = 0#32 then (100#64 : Timestamp).toInt else four.origin.toInt) ≤ (100#64 : Timestamp).toInt ∧
    ((List.replicate 8 0 : List Sample).length : Int) = (8#32 : Word).toInt ∧
    Fifo.Inv Config.reference 8 (emptyFifo true) ∧
    (9223372036854775804#64 : Timestamp).toInt + (3#32 : Word).toInt ≤ maxTimestamp := by decide

/-- The three clauses of the content after a write: a timestamp of the data (106), a retained one (101) and one of the gap (104). -/
theorem witness_writeContent :
    let t := ran (.fifoWrite .rx 2#32 106#64 [5, 6]) (withRx four)
    (t.rx.sampleAt 8 106, t.rx.sampleAt 8 101, t.rx.sampleAt 8 104, t.rx.sampleAt 8 107, t.rx.sampleAt 8 108) =
      (some 5, some 2, some 0, some 6, none) := by decide

/-- A slot that a write does not touch. -/
theorem witness_otherSlots : ∃ u,
    exec (.fifoWrite .rx 1#32 104#64 [9]) (withRx four) = .next u ∧
    ∀ x : Int, (writeFirstNew four 8 1 104 ≤ x ∧ x < writeE2 four 1 104) ∨ (104 ≤ x ∧ x < 104 + 1) →
      writeSlot four 8 1 104 x ≠ 5 := by
  refine ⟨_, rfl, fun x h => ?_⟩
  have e1 : writeFirstNew four 8 1 104 = 104 := by decide
  have e2 : writeE2 four 1 104 = 105 := by decide
  have : x = 104 := by omega
  subst this
  decide

/-- One sample more than there is room, appended at the end. -/
theorem witness_overflow :
    Config.reference.wf ∧ Fifo.Inv Config.reference 8 four ∧ four.isOpen = true ∧ four.length ≠ 0#32 ∧
    (5#32 : Word).toInt ≤ 8 ∧ four.endTime ≤ (104#64 : Timestamp).toInt ∧
    (8 : Int) - four.length.toNat < ((104#64 : Timestamp).toInt - four.endTime) + (5#32 : Word).toInt ∧
    (104#64 : Timestamp).toInt + (5#32 : Word).toInt ≤ maxTimestamp := by decide

/-- The same slot, by the slot map after the write: timestamp 104 is the only one made live. -/
theorem witness_unwrittenSlot (x : Int) (h1 : 100 ≤ x) (h2 : x < 105) (h3 : 104 ≤ x ∨ (104 ≤ x ∧ x < 104 + 1)) :
    ((ran (.fifoWrite .rx 1#32 104#64 [9]) (withRx four)).fifo .rx).slot 8 x ≠ 5 := by
  have : x = 104 := by omega
  subst this
  decide

/-- The four clauses of FIFO.READ's checks, each at a boundary: closed; count -1; one before the origin; exactly at the end. -/
theorem witness_readChecks :
    (State.reset.fifo .rx).isOpen = false ∧ four.isOpen = true ∧ (0xFFFFFFFF#32 : Word).toInt < 0 ∧
    (99#64 : Timestamp).toInt < four.origin.toInt ∧ four.origin.toInt + four.length.toNat ≤ (104#64 : Timestamp).toInt := by decide

/-- A FIFO.READ inside the window, at its first and its last timestamp. -/
theorem witness_readOk :
    (withRx four).cfg.wf ∧ Fifo.Inv (withRx four).cfg 8 four ∧ four.isOpen = true ∧ (0 : Int) ≤ (0#32 : Word).toInt ∧
    four.origin.toInt ≤ (100#64 : Timestamp).toInt ∧ (103#64 : Timestamp).toInt < four.origin.toInt + four.length.toNat := by decide

/-- A write that responds OK in a state that meets the invariant. -/
theorem witness_writeThenRead : ∃ t, Machine.Inv (withRx four) ∧ WellFormed (withRx four).cfg (.fifoWrite .rx 2#32 106#64 [5, 6]) = true ∧
    exec (.fifoWrite .rx 2#32 106#64 [5, 6]) (withRx four) = .next t ∧
    t.out = (withRx four).out ++ [] ++ [.rsp ⟨.ok, 4#8, 2#32, [], []⟩] := ⟨_, by decide, by decide, rfl, by decide⟩

/-- The two cases of a heartbeat. -/
theorem witness_heartbeat : State.reset.setupComplete = false ∧ (withClock true true 1#32 21#32).setupComplete = true := ⟨rfl, rfl⟩

/-- A state that presents `FRAME_MODULUS` CLK.ADVANCE requests. -/
theorem witness_modulusAdvances : ∃ s : State, s.cfg.wf ∧ s.currentFrame.toNat < s.cfg.frameModulus ∧
    s.req = List.replicate s.cfg.frameModulus (encode .clkAdvance) ++ [] :=
  ⟨{ State.reset with
      currentFrame := 2715647#32, req := List.replicate Config.reference.frameModulus (encode .clkAdvance) ++ [] },
    by decide, by decide, rfl⟩

theorem witness_clockInv : ClockInv State.reset ∧ ClockInv (withClock true true 4294967295#32 2715647#32) := by decide

/-- A heartbeat and a timeout that move the session; an advance that moves the frame alone. -/
theorem witness_sessionMoves : ∃ t u v,
    exec (.clkHeartbeat 5#32) State.reset = .next t ∧ t.available ≠ State.reset.available ∧ t.trxFrame ≠ State.reset.trxFrame ∧
    exec .clkTimeout (withClock true true 5#32 25#32) = .next u ∧ u.available = false ∧
    exec .clkAdvance State.reset = .next v ∧ v.currentFrame ≠ State.reset.currentFrame :=
  ⟨_, _, _, rfl, by decide, by decide, rfl, rfl, rfl, by decide⟩

theorem witness_codec : isCodec (.encDl 8#8 0#8 0#32 []) = true ∧ isCodec (.decUl []) = true ∧ isCodec (.decClock []) = true ∧
    isCodec (.encCmd .powerOn 0#32 0#32) = true ∧ State.reset.cfg = Config.reference := by decide

/-- A valid timeslot at the top of its range with a full payload, and the first invalid one. -/
theorem witness_timeslots : (7#8 : Byte).toNat ≤ 7 ∧ (bytes 148 255#8).length = 148 ∧ 7 < (8#8 : Byte).toNat := by decide +kernel

/-- Uplink datagrams: accepted, one byte short, and with the first invalid timeslot. -/
theorem witness_uplink :
    (uplink 7#8).length = 158 ∧ (byteAt (uplink 7#8) 0).toNat ≤ 7 ∧ (bytes 157 0#8).length ≠ 158 ∧ (uplink 8#8).length = 158 ∧
    7 < (byteAt (uplink 8#8) 0).toNat := by decide +kernel

/-- A clock text of the grammar, with the largest value. -/
theorem witness_clockText : ClockGrammar Config.reference (text "IND CLOCK 4294967295") 0xFFFFFFFF#32 :=
  ⟨ascii "4294967295".toList, [0#8], by decide, by decide, by decide, by decide, by decide⟩

/-- A datagram outside the grammar. -/
theorem witness_notClockText (v : Word) : ¬ ClockGrammar Config.reference [] v := by
  rintro ⟨ds, tail, h, -⟩
  have := congrArg List.length h
  simp [ascii] at this

/-- The two clauses of the command gate and the three of the burst checks. -/
theorem witness_gates :
    (withClock true true 0#32 0#32).available = true ∧ State.reset.available = false ∧ Command.rxTune ≠ .powerOff ∧
    (8#8 : Byte).toNat > 7 ∧ (7#8 : Byte).toNat ≤ 7 := by decide

/-- The codec's answers that the session statement starts from. -/
theorem witness_sessionSends :
    (∃ p, exec (.encDl 7#8 0#8 0#32 (bytes 148 1#8)) (withClock true true 0#32 0#32) =
      .next ((withClock true true 0#32 0#32).after [.rsp ⟨.ok, 0#8, 154#32, [], p⟩])) ∧
    (∃ p, exec (.encCmd .powerOff 0#32 0#32) State.reset = .next (State.reset.after [.rsp ⟨.ok, 0#8, 13#32, [], p⟩])) :=
  ⟨⟨_, rfl⟩, ⟨_, rfl⟩⟩

end Sys2Proof.Tests
end

section
/-! PROOF. Every step keeps the invariant of the block (10_state.md R34, R40). First what the decoder guarantees of an
instruction, then one rule per update of the state, then one lemma per operation that moves a FIFO or the frame clock, and
last the case split over the instructions. -/

namespace Sys2Proof.Machine

open Sys2Proof

/-! ## What a decoded request guarantees -/

/-- The instruction of a request that passes the decoder's checks is well formed (30_encoding.md R113). -/
theorem wellFormed_of_decode {c : Config} {r : Request} {i : Instr} (h : decode c r = .ok i) : WellFormed c i = true := by
  obtain ⟨hd, ws, o, -, -, -, -, -, -, hdg, hlen, hwidth, rfl⟩ := decode_cases c r i h
  have hpayload : payloadLenOk (build o hd ws r.payload) = true := by
    cases o <;> simp_all [build, payloadLenOk, payloadLength, Opcode.format, bytesOf]
  have hdgram : dgramLenOk (build o hd ws r.payload) = true := by
    cases o <;> simp_all [build, dgramLenOk, payloadLength, Opcode.format, bytesOf]
  have hitems : itemWidthOk c (build o hd ws r.payload) = true := by
    cases o <;> simp_all [build, itemWidthOk, itemBits]
  rw [WellFormed, hpayload, hdgram, hitems]
  rfl

/-- The payload of a well-formed FIFO.WRITE: as many samples as its count says, each of the configured width. -/
theorem wellFormed_fifoWrite {c : Config} {f : FifoSel} {n : Word} {ts : Timestamp} {data : List Sample}
    (h : WellFormed c (.fifoWrite f n ts data) = true) :
    data.length = n.toInt.toNat ∧ ∀ v ∈ data, v < 2 ^ c.sampleBits := by
  simpa [WellFormed, payloadLenOk, dgramLenOk, itemWidthOk] using h

/-- The payload of a well-formed SESS.SENDBURST is one burst. -/
theorem wellFormed_sessSendBurst {c : Config} {ts g : Byte} {fn : Word} {bits : List Byte}
    (h : WellFormed c (.sessSendBurst ts g fn bits) = true) : bits.length = burstLen := by
  simpa [WellFormed, payloadLenOk, dgramLenOk, itemWidthOk] using h

/-! ## Outputs as the spec forms them -/

theorem outputOk_failRsp (c : Config) (st : Status) (h : st ≠ .ok) : outputOk c (failRsp st) = true := by
  cases st
  case ok => exact absurd rfl h
  all_goals rfl

/-- A successful response is well formed when its value fits the non-negative half of a word (30_encoding.md R109). -/
theorem outputOk_rsp_ok (c : Config) (fl : Byte) {v : Int} (h0 : 0 ≤ v) (h1 : v ≤ 2147483647) (ex : List Word) (pl : List Nat) :
    outputOk c (.rsp ⟨.ok, fl, BitVec.ofInt 32 v, ex, pl⟩) = true := by
  have hv : (BitVec.ofInt 32 v).toInt = v := by
    rw [BitVec.toInt_ofInt]
    apply Int.bmod_eq_of_le <;> omega
  simp [outputOk, ResponseOk, hv, h0]

/-- The datagram of a burst has `DATA_SEND_SIZE` bytes and starts with its timeslot (42_codec.md R192). -/
theorem outputOk_encDl (c : Config) {ts : Byte} (g : Byte) (fn : Word) {bits : List Byte} (hb : bits.length = burstLen)
    (ht : timeslotOk ts = true) : outputOk c (.trx .data (encDlBytes ts fn g bits)) = true := by
  have hlen : (encDlBytes ts fn g bits).length = dataSendSize := by simp [encDlBytes, bigEndian32, hb]
  have hts : (byteAt (encDlBytes ts fn g bits) 0).toNat < numTimeslots := of_decide_eq_true ht
  exact decide_eq_true ⟨hlen, hts⟩

/-- An uplink burst that passes the checks has a valid timeslot and `BURST_LEN` soft values (42_codec.md R195, R197). -/
theorem outputOk_of_decodeUplink (c : Config) {d : List Byte} {u : UlBurst} (h : decodeUplink d = .ok u) :
    outputOk c (.up (.ulBurst u)) = true := by
  unfold decodeUplink at h
  split_ifs at h with hlen hts
  cases h
  have ht : (byteAt d 0).toNat < numTimeslots := of_decide_eq_true (Bool.of_not_eq_false hts)
  exact decide_eq_true ⟨ht, by simp [decUlFields]⟩

/-! ## The invariant under each update of the state -/

theorem inv_fifo {s : State} (hs : Inv s) (f : FifoSel) : Fifo.Inv s.cfg (s.capacity f) (s.fifo f) := by
  obtain ⟨_, hrx, htx, _, _⟩ := hs
  cases f
  · exact hrx
  · exact htx

theorem inv_accept {s : State} (hs : Inv s) : Inv s.accept := hs

theorem inv_setFifo {s : State} (hs : Inv s) (f : FifoSel) {F : Fifo} (hF : Fifo.Inv s.cfg (s.capacity f) F) :
    Inv (s.setFifo f F) := by
  obtain ⟨hcfg, hrx, htx, hclock, hout⟩ := hs
  cases f
  · exact ⟨hcfg, hF, htx, hclock, hout⟩
  · exact ⟨hcfg, hrx, hF, hclock, hout⟩

/-- The frame-clock unit may take any frame below the modulus and any pair of equal session bits. -/
theorem inv_setClock {s : State} (hs : Inv s) {a b : Bool} (hab : a = b) (trx : Word) {cur : Word}
    (hcur : cur.toNat < s.cfg.frameModulus) :
    Inv { s with available := a, setupComplete := b, trxFrame := trx, currentFrame := cur } := by
  obtain ⟨hcfg, hrx, htx, _, hout⟩ := hs
  exact ⟨hcfg, hrx, htx, ⟨hcur, hab⟩, hout⟩

theorem inv_emit {s : State} (hs : Inv s) {os : List Output} (ho : OutOk s os) : Inv (s.emit os) := by
  obtain ⟨hcfg, hrx, htx, hclock, hout⟩ := hs
  exact ⟨hcfg, hrx, htx, hclock, fun o hm => (List.mem_append.1 hm).elim (hout o) (ho o)⟩

theorem inv_emit_one {s : State} (hs : Inv s) {o : Output} (ho : outputOk s.cfg o = true) : Inv (s.emit [o]) :=
  inv_emit hs fun _ hm => List.mem_singleton.1 hm ▸ ho

theorem inv_emitDiag {s : State} (hs : Inv s) (d : DiagCode) : Inv (s.emitDiag d) := inv_emit_one hs rfl

theorem inv_emitDiagIf {s : State} (hs : Inv s) (b : Bool) (d : DiagCode) : Inv (s.emitDiagIf b d) := by
  cases b
  · exact hs
  · exact inv_emitDiag hs d

theorem inv_emitControl {s : State} (hs : Inv s) (d : List Byte) : Inv (s.emitTrx .control d) := inv_emit_one hs rfl

theorem inv_raise {s : State} (hs : Inv s) {st : Status} (h : st ≠ .ok) : Inv (s.raise st) :=
  inv_emit_one hs (outputOk_failRsp s.cfg st h)

theorem inv_respond {s : State} (hs : Inv s) {fl : Byte} {v : Int} {ex : List Word} {pl : List Nat} (h0 : 0 ≤ v)
    (h1 : v ≤ 2147483647) : Inv (s.respond .ok fl v ex pl) := inv_emit_one hs (outputOk_rsp_ok s.cfg fl h0 h1 ex pl)

@[simp] theorem capacity_emitDiagIf (s : State) (b : Bool) (d : DiagCode) (f : FifoSel) :
    (s.emitDiagIf b d).capacity f = s.capacity f := by rw [State.capacity, emitDiagIf_cfg, State.capacity]

/-! ## The operations that move a FIFO or the frame clock -/

/-- The result is a next state, and that state meets the invariant. -/
def AnswersInv (r : Result) : Prop := ∃ t, r = .next t ∧ Inv t

theorem answersInv_next {t : State} (h : Inv t) : AnswersInv (.next t) := ⟨t, rfl, h⟩

/-- The checks of FIFO.WRITE that pass are what `written_inv` needs (40_fifo.md R144, R146). -/
theorem execFifoWrite_keeps_inv {s : State} (hs : Inv s) (f : FifoSel) (count : Word) (ts : Timestamp) {data : List Sample}
    (hwf : WellFormed s.cfg (.fifoWrite f count ts data) = true) : AnswersInv (execFifoWrite f count ts data s) := by
  have hcap := capacity_wf s f hs.1
  have hF := inv_fifo hs f
  obtain ⟨hlen, hfit⟩ := wellFormed_fifoWrite hwf
  unfold execFifoWrite
  extract_lets F C n t
  split_ifs with hclosed hcount htop hstale
  · exact answersInv_next (inv_raise hs (by decide))
  · exact answersInv_next (inv_raise hs (by decide))
  · exact answersInv_next (inv_raise hs (by decide))
  · exact answersInv_next (inv_raise hs (by decide))
  · have hn : 0 ≤ n ∧ n ≤ C := by omega
    have hok : WriteOk F C n t := writeOk_of_checks hcap hF hn.1 hn.2 (by omega) ts rfl (by omega)
    have hdata : (data.length : Int) = n := by rw [hlen]; exact Int.toNat_of_nonneg hn.1
    have hwritten := written_inv hok data hdata hF (Bool.of_not_eq_false hclosed) hfit
    have hdiag := inv_emitDiagIf (inv_emitDiagIf hs (flagOvw F n t) .overwrite) (flagOvf F C n t) .overflow
    refine answersInv_next (inv_respond (inv_setFifo hdiag f ?_) hn.1 (by omega))
    rw [capacity_emitDiagIf, capacity_emitDiagIf, emitDiagIf_cfg, emitDiagIf_cfg]
    exact hwritten

/-- The checks of FIFO.READ that pass are what `consumed_inv` needs (40_fifo.md R153, R156). -/
theorem execFifoRead_keeps_inv {s : State} (hs : Inv s) (f : FifoSel) (maxCount : Word) (ts : Timestamp) :
    AnswersInv (execFifoRead f maxCount ts s) := by
  have hcap := capacity_wf s f hs.1
  have hF := inv_fifo hs f
  have ⟨hlen, _, hend, _⟩ := hF
  unfold execFifoRead
  extract_lets F C m t
  split_ifs with hclosed hcount hpast hahead
  · exact answersInv_next (inv_raise hs (by decide))
  · exact answersInv_next (inv_raise hs (by decide))
  · exact answersInv_next (inv_raise hs (by decide))
  · exact answersInv_next (inv_respond hs (by decide) (by decide))
  · have hok : ReadOk F m t := ⟨hlen.trans hcap.2, hend, by omega, by omega, by omega⟩
    have hconsumed := consumed_inv hok hF (Bool.of_not_eq_false hclosed)
    have hdrawn : Inv { s with draws := s.draws + 1 } := hs
    have hm : m ≤ 2147483647 := Int.le_of_lt_add_one (BitVec.toInt_lt (x := maxCount))
    have := hok.count
    exact answersInv_next (inv_respond (inv_setFifo hdrawn f hconsumed) (by omega) (by omega))

/-- A frame number as a word: below the modulus, and not negative as a response value (10_state.md R40). -/
theorem frameWord_bounds {c : Config} (hc : c.wf) {k : Nat} (hk : k < 2715648) :
    (BitVec.ofNat 32 k).toNat < c.frameModulus ∧ 0 ≤ (BitVec.ofNat 32 k).toInt ∧ (BitVec.ofNat 32 k).toInt ≤ 2147483647 := by
  obtain ⟨-, -, hmod, -⟩ := hc
  rw [hmod, frameWord_toNat k hk, frameWord_toInt k hk]
  exact ⟨hk, by omega, by omega⟩

theorem heartbeatOutputs_ok {s : State} (hc : s.cfg.wf) (v : Word) : OutOk s (heartbeatOutputs v s) := by
  intro o ho
  unfold heartbeatOutputs at ho
  split at ho
  · rw [List.mem_singleton.1 ho]
    exact decide_eq_true (frameWord_bounds hc (heartbeatFrame_lt s.cfg hc _)).1
  · obtain ⟨x, _, rfl⟩ := List.mem_map.1 ho
    rfl

/-- A heartbeat ends in Operational with the frame reduced (41_frameclock.md R172 to R174). -/
theorem inv_heartbeat {s : State} (hs : Inv s) (v : Word) : Inv (heartbeat v s) := by
  obtain ⟨hmod, hvalue0, hvalue1⟩ := frameWord_bounds hs.1 (heartbeatFrame_lt s.cfg hs.1 (unsignedWord v))
  have hbits : (s.available || !s.setupComplete) = true := by
    obtain ⟨-, -, -, ⟨-, hbit⟩, -⟩ := hs
    rw [hbit, Bool.or_not_self]
  rw [heartbeat_eq]
  exact inv_respond (inv_emit (inv_setClock hs hbits v hmod) (heartbeatOutputs_ok hs.1 v)) hvalue0 hvalue1

theorem execClkAdvance_keeps_inv {s : State} (hs : Inv s) : AnswersInv (execClkAdvance s) := by
  obtain ⟨hmod, hvalue0, hvalue1⟩ := frameWord_bounds hs.1 (advanceFrame_lt s.cfg hs.1 (unsignedWord s.currentFrame))
  have ⟨_, _, _, ⟨_, hbit⟩, _⟩ := hs
  exact answersInv_next (inv_respond (inv_setClock hs hbit s.trxFrame hmod) hvalue0 hvalue1)

theorem execClkTimeout_keeps_inv {s : State} (hs : Inv s) : AnswersInv (execClkTimeout s) := by
  have ⟨_, _, _, ⟨hmod, _⟩, _⟩ := hs
  have hlost := inv_setClock hs (a := false) (b := false) rfl s.trxFrame hmod
  exact answersInv_next (inv_respond (inv_emitDiag (inv_emitControl hlost _) _) (by decide) (by decide))

/-! ## Every operation, every step -/

theorem decodeUplink_error_ne_ok {d : List Byte} {st : Status} (h : decodeUplink d = .error st) : st ≠ .ok := by
  rcases decodeUplink_error d st h with rfl | rfl <;> decide

theorem encCmd_value (k : Command) (a b : Word) : ((encCmdBytes k a b).length : Int) ≤ 2147483647 := by
  have := encCmd_length k a b
  omega

/-- A well-formed instruction keeps the invariant, and always answers a next state. -/
theorem exec_keeps_inv {s : State} (hs : Inv s) (i : Instr) (hwf : WellFormed s.cfg i = true) : AnswersInv (exec i s) := by
  have hcap := fun f => (capacity_wf s f hs.1).1
  cases i with
  | fifoOpen f =>
    exact answersInv_next (inv_respond (inv_setFifo hs f (emptyFifo_inv _ _ (hcap f) true)) (by decide) (by decide))
  | fifoClose f =>
    exact answersInv_next (inv_respond (inv_setFifo hs f (emptyFifo_inv _ _ (hcap f) false)) (by decide) (by decide))
  | fifoWrite f n ts data => exact execFifoWrite_keeps_inv hs f n ts hwf
  | fifoRead f m ts => exact execFifoRead_keeps_inv hs f m ts
  | fifoStatus f => exact answersInv_next (inv_respond hs (by decide) (by decide))
  | clkHeartbeat v => exact answersInv_next (inv_heartbeat hs v)
  | clkAdvance => exact execClkAdvance_keeps_inv hs
  | clkTimeout => exact execClkTimeout_keeps_inv hs
  | clkStatus => exact answersInv_next (inv_respond hs (by decide) (by decide))
  | encDl ts g fn bits =>
    simp only [exec, execEncDl]
    split_ifs
    · exact answersInv_next (inv_raise hs (by decide))
    · exact answersInv_next (inv_respond hs (by decide) (by decide))
  | decUl d =>
    cases h : decodeUplink d with
    | error st =>
      simp only [exec, execDecUl, h]
      exact answersInv_next (inv_raise hs (decodeUplink_error_ne_ok h))
    | ok u =>
      simp only [exec, execDecUl, h]
      exact answersInv_next (inv_respond hs (by decide) (by decide))
  | decClock d =>
    cases h : decClockValue s.cfg d with
    | none =>
      simp only [exec, execDecClock, h]
      exact answersInv_next (inv_raise hs (by decide))
    | some v =>
      simp only [exec, execDecClock, h]
      exact answersInv_next (inv_respond hs (by decide) (by decide))
  | encCmd k a b => exact answersInv_next (inv_respond hs (Int.natCast_nonneg _) (encCmd_value k a b))
  | sessSendCmd k a b =>
    simp only [exec, execSessSendCmd]
    split_ifs
    · exact answersInv_next (inv_raise (inv_emitDiag hs _) (by decide))
    · exact answersInv_next (inv_respond (inv_emitControl hs _) (Int.natCast_nonneg _) (encCmd_value k a b))
  | sessSendBurst ts g fn bits =>
    simp only [exec, execSessSendBurst]
    split_ifs with hts
    · exact answersInv_next (inv_raise hs (by decide))
    · exact answersInv_next (inv_raise (inv_emitDiag hs _) (by decide))
    · have hburst := outputOk_encDl s.cfg g fn (wellFormed_sessSendBurst hwf) (Bool.of_not_eq_false hts)
      exact answersInv_next (inv_respond (inv_emit_one hs hburst) (by decide) (by decide))
  | rxClock d =>
    cases h : decClockValue s.cfg d with
    | none =>
      simp only [exec, execRxClock, h]
      exact answersInv_next (inv_raise (inv_emitDiag hs _) (by decide))
    | some v =>
      simp only [exec, execRxClock, h]
      exact answersInv_next (inv_heartbeat hs v)
  | rxCtrl d => exact answersInv_next (inv_respond (inv_emitDiag hs _) (by decide) (by decide))
  | rxData d =>
    cases h : decodeUplink d with
    | error st =>
      simp only [exec, execRxData, h]
      exact answersInv_next (inv_raise (inv_emitDiag hs _) (decodeUplink_error_ne_ok h))
    | ok u =>
      simp only [exec, execRxData, h]
      exact answersInv_next (inv_respond (inv_emit_one hs (outputOk_of_decodeUplink s.cfg h)) (by decide) (by decide))

/-- A step is an operation, a refusal or an idle step, and each keeps the invariant. -/
theorem step_keeps_inv {s : State} (hs : Inv s) : AnswersInv (step s) := by
  unfold step
  split
  · exact answersInv_next hs
  · split
    next i hdec => exact exec_keeps_inv (inv_accept hs) i (wellFormed_of_decode hdec)
    next => exact answersInv_next (inv_raise (inv_accept hs) (by decide))

/-- Settles O17, by the case split over the instructions (`exec_keeps_inv`). -/
theorem stepKeepsTheInvariant : Obligations.StepKeepsTheInvariant := by
  intro s t hs hstep
  obtain ⟨u, hu, hinv⟩ := step_keeps_inv hs
  cases hstep.symm.trans hu
  exact hinv

end Sys2Proof.Machine
end

section
/-! PROOF. The worked encodings of 30_encoding.md R117. First the converse of `decode_cases`: a request that passes the checks
of R113 decodes to what `build` makes of it. -/

namespace Sys2Proof

/-- A request decodes when its header is legal and its words and items pass every check (30_encoding.md R113). -/
theorem decode_of_checks (c : Config) (o : Opcode) (h : Word) (ws : List Word) (items : List Nat)
    (ho : o.byte = headerOp h) (hz : headerZ h = 0#8) (hb : o.format = .burst ∨ headerB h = 0#8)
    (ha : aLegal o (headerA h) = true) (hw : ws.length = o.format.operandWords)
    (hd : o.format = .dg → (operandWord ws 0).toNat ≤ maxDgram) (hl : items.length = payloadLength o ws)
    (hi : ∀ x ∈ items, x < 2 ^ itemBits c o) : decode c ⟨h :: ws, items⟩ = .ok (build o h ws items) := by
  have hh : header o.byte (headerA h) (headerB h) 0#8 = h := by rw [ho, ← hz, header_fields]
  have hlegal := decode_legal c o (headerA h) (headerB h) ws items hb ha
  rw [hh] at hlegal
  exact hlegal.trans (decodeBody_ok c o h ws items hw hd hl hi)

/-- The request of FIFO.WRITE tx,4,100 (30_encoding.md R117). -/
theorem decode_worked_fifoWrite (c : Config) (data : List Sample) (hlen : data.length = 4)
    (hfit : ∀ v ∈ data, v < 2 ^ c.sampleBits) :
    decode c ⟨[0x12010000#32, 0x00000004#32, 0x00000000#32, 0x00000064#32], data⟩ =
      .ok (.fifoWrite .tx 4#32 100#64 data) :=
  decode_of_checks c .fifoWrite _ _ _ (by decide) (by decide) (by decide) (by decide) rfl (by decide) hlen hfit

/-- The request of FIFO.READ rx,8,-1: the timestamp is the two words of ones, joined. -/
theorem decode_worked_fifoRead (c : Config) :
    decode c ⟨[0x13000000#32, 0x00000008#32, 0xFFFFFFFF#32, 0xFFFFFFFF#32], []⟩ =
      .ok (.fifoRead .rx 8#32 (BitVec.ofInt 64 (-1))) :=
  decode_of_checks c .fifoRead _ _ _ (by decide) (by decide) (by decide) (by decide) rfl (by decide) rfl (by simp)

/-- The request of CLK.HEARTBEAT 100. -/
theorem decode_worked_clkHeartbeat (c : Config) :
    decode c ⟨[0x20000000#32, 0x00000064#32], []⟩ = .ok (.clkHeartbeat 100#32) :=
  decode_of_checks c .clkHeartbeat _ _ _ (by decide) (by decide) (by decide) (by decide) rfl (by decide) rfl (by simp)

/-- The request of ENC.CMD SETSLOT,3,7. -/
theorem decode_worked_encCmd (c : Config) :
    decode c ⟨[0x33080000#32, 0x00000003#32, 0x00000007#32], []⟩ = .ok (.encCmd .setSlot 3#32 7#32) :=
  decode_of_checks c .encCmd _ _ _ (by decide) (by decide) (by decide) (by decide) rfl (by decide) rfl (by simp)

/-- The request of SESS.SENDBURST 2,123456,-3: timeslot and gain stand in the header. -/
theorem decode_worked_sessSendBurst (c : Config) (bits : List Byte) (hlen : bits.length = burstLen) :
    decode c ⟨[0x4102FD00#32, 0x0001E240#32], itemsOf bits⟩ =
      .ok (.sessSendBurst 2#8 (BitVec.ofInt 8 (-3)) 123456#32 bits) := by
  have h := decode_of_checks c .sessSendBurst 0x4102FD00#32 [0x0001E240#32] (itemsOf bits) (by decide) (by decide)
    (by decide) (by decide) rfl (by decide) ((length_itemsOf bits).trans hlen) (itemsOf_lt bits)
  rw [build, bytesOf_itemsOf] at h
  exact h

/-- The request of RX.DATA with a datagram of 158 bytes: the length word is the datagram's length. -/
theorem decode_worked_rxData (c : Config) (d : List Byte) (hlen : d.length = dataRecvSize) :
    decode c ⟨[0x44000000#32, 0x0000009E#32], itemsOf d⟩ = .ok (.rxData d) := by
  have h := decode_of_checks c .rxData 0x44000000#32 [0x0000009E#32] (itemsOf d) (by decide) (by decide)
    (by decide) (by decide) rfl (by decide) ((length_itemsOf d).trans hlen) (itemsOf_lt d)
  rw [build, bytesOf_itemsOf] at h
  exact h

/-- Settles O4: each worked request passes the decoder's checks (`decode_of_checks`). -/
theorem workedEncodingsDecode : Obligations.WorkedEncodingsDecode :=
  ⟨fun c w x y z => decode_worked_fifoWrite c [w, x, y, z] rfl, decode_worked_fifoRead, decode_worked_clkHeartbeat,
    decode_worked_sessSendBurst, decode_worked_encCmd, decode_worked_rxData⟩

end Sys2Proof
end

section
/-! PROOF. The value of every response (30_encoding.md R109), from any state under a legal configuration: one rule for a failing
and one for a successful operation, then the case split over the instructions. -/

namespace Sys2Proof.Machine

open Sys2Proof

/-! ## What R109 says of one response -/

theorem responseOk_of_outputOk {c : Config} {resp : Response} (h : outputOk c (.rsp resp) = true) : ResponseOk resp :=
  of_decide_eq_true h

theorem responseOk_value_failed {resp : Response} (h : ResponseOk resp) (hst : resp.status ≠ .ok) :
    resp.value.toInt = -(resp.status.code : Int) := by
  rw [ResponseOk, if_neg hst] at h
  obtain ⟨-, hvalue, -⟩ := h
  exact hvalue

/-- Only OK has the number 0 (30_encoding.md R108). -/
theorem status_code_pos {st : Status} (h : st ≠ .ok) : 0 < st.code := by
  cases st
  case ok => exact absurd rfl h
  all_goals decide

theorem responseOk_value_neg_iff {resp : Response} (h : ResponseOk resp) :
    resp.value.toInt < 0 ↔ resp.status ≠ .ok := by
  by_cases hst : resp.status = .ok
  · rw [ResponseOk, if_pos hst] at h
    simp [hst, h]
  · have hvalue := responseOk_value_failed h hst
    have hpos := status_code_pos hst
    exact iff_of_true (by omega) hst

/-! ## How an operation ends -/

/-- The result is a next state whose last output is a response as R106, R107 and R109 allow it. -/
def EndsInResponse (r : Result) : Prop :=
  ∃ (t : State) (os : List Output) (resp : Response), r = .next t ∧ t.out = os ++ [.rsp resp] ∧ ResponseOk resp

theorem endsInResponse_raise (u : State) {st : Status} (h : st ≠ .ok) : EndsInResponse (.next (u.raise st)) :=
  ⟨_, u.out, _, rfl, rfl, responseOk_of_outputOk (outputOk_failRsp u.cfg st h)⟩

theorem endsInResponse_respond (u : State) {fl : Byte} {v : Int} {ex : List Word} {pl : List Nat} (h0 : 0 ≤ v)
    (h1 : v ≤ 2147483647) : EndsInResponse (.next (u.respond .ok fl v ex pl)) :=
  ⟨_, u.out, _, rfl, rfl, responseOk_of_outputOk (outputOk_rsp_ok u.cfg fl h0 h1 ex pl)⟩

/-- The count that passes the checks of FIFO.WRITE is not negative, and it is the value (40_fifo.md R144). -/
theorem endsInResponse_execFifoWrite (f : FifoSel) (count : Word) (ts : Timestamp) (data : List Sample) (s : State) :
    EndsInResponse (execFifoWrite f count ts data s) := by
  have hcount : signedWord count ≤ 2147483647 := Int.le_of_lt_add_one (BitVec.toInt_lt (x := count))
  unfold execFifoWrite
  extract_lets F C n t
  split_ifs with hclosed hrange
  · exact endsInResponse_raise s (by decide)
  · exact endsInResponse_raise s (by decide)
  · exact endsInResponse_raise s (by decide)
  · exact endsInResponse_raise s (by decide)
  · exact endsInResponse_respond _ (by omega) hcount

/-- A read returns no more samples than the maximum count (40_fifo.md R156). -/
theorem readCount_le (F : Fifo) {m : Int} (t : Int) (hm : 0 ≤ m) : (readCount F m t : Int) ≤ m := by
  unfold readCount
  omega

theorem endsInResponse_execFifoRead (f : FifoSel) (maxCount : Word) (ts : Timestamp) (s : State) :
    EndsInResponse (execFifoRead f maxCount ts s) := by
  have hmax : signedWord maxCount ≤ 2147483647 := Int.le_of_lt_add_one (BitVec.toInt_lt (x := maxCount))
  unfold execFifoRead
  extract_lets F C m t
  split_ifs with hclosed hneg
  · exact endsInResponse_raise s (by decide)
  · exact endsInResponse_raise s (by decide)
  · exact endsInResponse_raise s (by decide)
  · exact endsInResponse_respond s (by decide) (by decide)
  · exact endsInResponse_respond _ (Int.natCast_nonneg _) ((readCount_le F t (not_lt.1 hneg)).trans hmax)

/-- The value of a heartbeat is the new frame, which is below the modulus (41_frameclock.md R172). -/
theorem endsInResponse_heartbeat {s : State} (hc : s.cfg.wf) (v : Word) : EndsInResponse (.next (heartbeat v s)) := by
  obtain ⟨-, hvalue0, hvalue1⟩ := frameWord_bounds hc (heartbeatFrame_lt s.cfg hc (unsignedWord v))
  exact endsInResponse_respond _ hvalue0 hvalue1

/-- Every operation, from any state under a legal configuration. -/
theorem exec_endsInResponse {s : State} (hc : s.cfg.wf) (i : Instr) : EndsInResponse (exec i s) := by
  cases i with
  | fifoOpen f => exact endsInResponse_respond _ (by decide) (by decide)
  | fifoClose f => exact endsInResponse_respond _ (by decide) (by decide)
  | fifoWrite f n ts data => exact endsInResponse_execFifoWrite f n ts data s
  | fifoRead f m ts => exact endsInResponse_execFifoRead f m ts s
  | fifoStatus f => exact endsInResponse_respond s (by decide) (by decide)
  | clkHeartbeat v => exact endsInResponse_heartbeat hc v
  | clkAdvance =>
    obtain ⟨-, hvalue0, hvalue1⟩ := frameWord_bounds hc (advanceFrame_lt s.cfg hc (unsignedWord s.currentFrame))
    exact endsInResponse_respond _ hvalue0 hvalue1
  | clkTimeout => exact endsInResponse_respond _ (by decide) (by decide)
  | clkStatus => exact endsInResponse_respond s (by decide) (by decide)
  | encDl ts g fn bits =>
    simp only [exec, execEncDl]
    split_ifs
    · exact endsInResponse_raise s (by decide)
    · exact endsInResponse_respond s (by decide) (by decide)
  | decUl d =>
    cases h : decodeUplink d with
    | error st =>
      simp only [exec, execDecUl, h]
      exact endsInResponse_raise s (decodeUplink_error_ne_ok h)
    | ok u =>
      simp only [exec, execDecUl, h]
      exact endsInResponse_respond s (by decide) (by decide)
  | decClock d =>
    simp only [exec, execDecClock]
    split
    · exact endsInResponse_raise s (by decide)
    · exact endsInResponse_respond s (by decide) (by decide)
  | encCmd k a b => exact endsInResponse_respond s (Int.natCast_nonneg _) (encCmd_value k a b)
  | sessSendCmd k a b =>
    simp only [exec, execSessSendCmd]
    split_ifs
    · exact endsInResponse_raise _ (by decide)
    · exact endsInResponse_respond _ (Int.natCast_nonneg _) (encCmd_value k a b)
  | sessSendBurst ts g fn bits =>
    simp only [exec, execSessSendBurst]
    split_ifs
    · exact endsInResponse_raise s (by decide)
    · exact endsInResponse_raise _ (by decide)
    · exact endsInResponse_respond _ (by decide) (by decide)
  | rxClock d =>
    simp only [exec, execRxClock]
    split
    · exact endsInResponse_raise _ (by decide)
    next v _ => exact endsInResponse_heartbeat hc v
  | rxCtrl d => exact endsInResponse_respond _ (by decide) (by decide)
  | rxData d =>
    cases h : decodeUplink d with
    | error st =>
      simp only [exec, execRxData, h]
      exact endsInResponse_raise _ (decodeUplink_error_ne_ok h)
    | ok u =>
      simp only [exec, execRxData, h]
      exact endsInResponse_respond _ (by decide) (by decide)

/-- A step that takes a request performs it or refuses it (30_encoding.md R113, R114). -/
theorem step_endsInResponse {s : State} (hc : s.cfg.wf) {r : Request} {rest : List Request} (hreq : s.req = r :: rest) :
    EndsInResponse (step s) := by
  have hpresented : s.presented = some r := by rw [State.presented, hreq]; rfl
  simp only [step, hpresented]
  split
  next i _ => exact exec_endsInResponse (s := s.accept) hc i
  next => exact endsInResponse_raise s.accept (by decide)

/-- Settles O11: the step's last output is the response, and it is as R109 allows (`exec_endsInResponse`). -/
theorem negativeValueExactlyOnFailure : Obligations.NegativeValueExactlyOnFailure := by
  intro s t r rest evs resp hc hreq hstep hout
  obtain ⟨u, os, resp', hu, hlast, hok⟩ := step_endsInResponse hc hreq
  cases hstep.symm.trans hu
  obtain ⟨-, hrsp⟩ := List.append_inj' (hout.symm.trans hlast) rfl
  cases hrsp
  have hvalue : ∀ st : Status, st ≠ .ok → resp.status = st → resp.value.toInt = -(st.code : Int) := by
    rintro st hne rfl
    exact responseOk_value_failed hok hne
  exact ⟨responseOk_value_neg_iff hok, hvalue .invalidArg (by decide), hvalue .stale (by decide), hvalue .past (by decide),
    hvalue .refused (by decide), hvalue .dropLength (by decide), hvalue .dropTimeslot (by decide),
    hvalue .dropMalformed (by decide), hvalue .illegalOp (by decide), hvalue .closed (by decide)⟩

end Sys2Proof.Machine
end

section
/-! PROOF. The operations that empty a FIFO or report it, and the checks of FIFO.WRITE and FIFO.READ in the order of
40_fifo.md R141 and 60_exceptions.md R255: one rule per check, each under the checks before it. -/

namespace Sys2Proof.Machine

open Sys2Proof

/-! ## FIFO.OPEN, FIFO.CLOSE and FIFO.STATUS -/

theorem exec_fifoOpen (f : FifoSel) (s : State) :
    exec (.fifoOpen f) s = .next ((s.setFifo f (emptyFifo true)).after [okRsp 0 [] []]) := rfl

theorem exec_fifoClose (f : FifoSel) (s : State) :
    exec (.fifoClose f) s = .next ((s.setFifo f (emptyFifo false)).after [okRsp 0 [] []]) := rfl

theorem exec_fifoStatus (f : FifoSel) (s : State) :
    exec (.fifoStatus f) s = .next (s.after [okRsp 0
      [(BitVec.ofBool (s.fifo f).isOpen).zeroExtend 32, highWord (s.fifo f).origin, lowWord (s.fifo f).origin,
        (s.fifo f).length, (s.fifo f).wcur, BitVec.ofNat 32 (s.capacity f)] []]) := rfl

/-- A bit reported in a result word (30_encoding.md R106). -/
theorem zeroExtend_ofBool (b : Bool) : (BitVec.ofBool b).zeroExtend 32 = if b then 1#32 else 0#32 := by
  cases b <;> rfl

/-- The two words of a timestamp are its halves, high word first (30_encoding.md R102). -/
theorem highWord_lowWord_toNat (t : Timestamp) : (highWord t).toNat * 2 ^ 32 + (lowWord t).toNat = t.toNat := by
  have ht := t.isLt
  simp only [highWord, lowWord, BitVec.extractLsb'_toNat, Nat.shiftRight_eq_div_pow]
  omega

/-- Settles O22. -/
theorem fifoOpenEmptiesTheInstance : Obligations.FifoOpenEmptiesTheInstance :=
  fun f s => ⟨by cases f <;> rfl, exec_fifoOpen f s⟩

/-- Settles O24: the origin is reported by its two halves (`highWord_lowWord_toNat`). -/
theorem fifoStatusReportsTheInstance : Obligations.FifoStatusReportsTheInstance := by
  intro f s
  refine ⟨highWord (s.fifo f).origin, lowWord (s.fifo f).origin, by cases f <;> rfl, ?_, highWord_lowWord_toNat _⟩
  rw [exec_fifoStatus, zeroExtend_ofBool]
  cases f <;> rfl

/-! ## The checks of FIFO.WRITE -/

section
variable {f : FifoSel} {count : Word} {ts : Timestamp} {data : List Sample} {s : State}

theorem exec_fifoWrite_closed (hclosed : (s.fifo f).isOpen = false) :
    exec (.fifoWrite f count ts data) s = .next (s.after [failRsp .closed]) := if_pos hclosed

theorem exec_fifoWrite_badCount (hopen : (s.fifo f).isOpen = true)
    (hcount : count.toInt < 0 ∨ (s.capacity f : Int) < count.toInt) :
    exec (.fifoWrite f count ts data) s = .next (s.after [failRsp .invalidArg]) :=
  (if_neg (ne_false_of_eq_true hopen)).trans (if_pos hcount)

theorem exec_fifoWrite_badEnd (hopen : (s.fifo f).isOpen = true) (h0 : 0 ≤ count.toInt) (hC : count.toInt ≤ s.capacity f)
    (hend : maxTimestamp < ts.toInt + count.toInt) :
    exec (.fifoWrite f count ts data) s = .next (s.after [failRsp .invalidArg]) := by
  have hcount : ¬ (count.toInt < 0 ∨ count.toInt > s.capacity f) := by omega
  exact (if_neg (ne_false_of_eq_true hopen)).trans ((if_neg hcount).trans (if_pos hend))

theorem exec_fifoWrite_stale (hopen : (s.fifo f).isOpen = true) (h0 : 0 ≤ count.toInt) (hC : count.toInt ≤ s.capacity f)
    (hend : ts.toInt + count.toInt ≤ maxTimestamp) (hstale : ts.toInt < writeO (s.fifo f) ts.toInt) :
    exec (.fifoWrite f count ts data) s = .next (s.after [failRsp .stale]) := by
  have hcount : ¬ (count.toInt < 0 ∨ count.toInt > s.capacity f) := by omega
  exact (if_neg (ne_false_of_eq_true hopen)).trans
    ((if_neg hcount).trans ((if_neg (not_lt.2 hend)).trans (if_pos hstale)))

end

/-- No write to an empty FIFO is stale; on any other the origin decides (40_fifo.md R149, R150). -/
theorem writeO_le_iff (F : Fifo) (t : Int) : writeO F t ≤ t ↔ F.length = 0#32 ∨ F.origin.toInt ≤ t := by
  rw [← writeO_eq]
  split_ifs with hempty <;> simp [hempty]

/-- Settles O25: one rule per failing check, and `exec_fifoWrite_ok` for the request that passes them all. -/
theorem fifoWriteChecksInOrder : Obligations.FifoWriteChecksInOrder := by
  intro f count ts data s F C n t answer
  refine ⟨exec_fifoWrite_closed, exec_fifoWrite_badCount, exec_fifoWrite_badEnd, ?_, ?_⟩
  · intro hopen h0 hC hend hne horigin
    have hstale : ¬ (writeO F t ≤ t) := by
      rw [writeO_le_iff]
      exact not_or.2 ⟨hne, not_le.2 horigin⟩
    exact exec_fifoWrite_stale hopen h0 hC hend (not_le.1 hstale)
  · intro hopen h0 hC hend hfresh
    exact ⟨_, _, _, exec_fifoWrite_ok f count ts data s hopen h0 hC hend ((writeO_le_iff F t).2 hfresh),
      (congrArg (· ++ _) (setFifo_out ..)).trans (List.append_assoc ..).symm⟩

/-! ## The checks of FIFO.READ -/

section
variable {f : FifoSel} {maxCount : Word} {ts : Timestamp} {s : State}

theorem exec_fifoRead_closed (hclosed : (s.fifo f).isOpen = false) :
    exec (.fifoRead f maxCount ts) s = .next (s.after [failRsp .closed]) := if_pos hclosed

theorem exec_fifoRead_badCount (hopen : (s.fifo f).isOpen = true) (hcount : maxCount.toInt < 0) :
    exec (.fifoRead f maxCount ts) s = .next (s.after [failRsp .invalidArg]) :=
  (if_neg (ne_false_of_eq_true hopen)).trans (if_pos hcount)

theorem exec_fifoRead_past (hopen : (s.fifo f).isOpen = true) (h0 : 0 ≤ maxCount.toInt)
    (hpast : ts.toInt < (s.fifo f).origin.toInt) :
    exec (.fifoRead f maxCount ts) s = .next (s.after [failRsp .past]) :=
  (if_neg (ne_false_of_eq_true hopen)).trans ((if_neg (not_lt.2 h0)).trans (if_pos hpast))

/-- Nothing is available yet at or after the end (40_fifo.md R155). -/
theorem exec_fifoRead_ahead (hopen : (s.fifo f).isOpen = true) (h0 : 0 ≤ maxCount.toInt)
    (horigin : (s.fifo f).origin.toInt ≤ ts.toInt) (hend : (s.fifo f).endTime ≤ ts.toInt) :
    exec (.fifoRead f maxCount ts) s = .next (s.after [okRsp 0 [] []]) :=
  (if_neg (ne_false_of_eq_true hopen)).trans
    ((if_neg (not_lt.2 h0)).trans ((if_neg (not_lt.2 horigin)).trans (if_pos hend)))

end

/-- Settles O29: one rule per check of FIFO.READ. -/
theorem fifoReadChecksInOrder : Obligations.FifoReadChecksInOrder :=
  fun _ _ _ _ => ⟨exec_fifoRead_closed, exec_fifoRead_badCount, exec_fifoRead_past, exec_fifoRead_ahead⟩

/-- Settles O23: the closed check is the first of FIFO.WRITE and of FIFO.READ. -/
theorem fifoCloseDestroysTheInstance : Obligations.FifoCloseDestroysTheInstance :=
  fun f s => ⟨by cases f <;> rfl, exec_fifoClose f s, fun hclosed =>
    ⟨fun _ _ _ => exec_fifoWrite_closed hclosed, fun _ _ => exec_fifoRead_closed hclosed⟩⟩

end Sys2Proof.Machine
end

section
/-! PROOF. A FIFO operation acts on one of the two FIFOs (40_fifo.md R140). What it may not touch is one part of the state, read and
replaced as a whole: every update of the state commutes with replacing it, hence so does every FIFO operation. That the
operation leaves that part alone follows, by replacing it with itself. -/

namespace Sys2Proof.Machine

open Sys2Proof

/-! ## The part of the state that a FIFO operation has no business with -/

/-- The state outside FIFO `f` that 40_fifo.md R140 names: the other FIFO and the frame-clock unit. -/
structure Elsewhere where
  other : Fifo
  available : Bool
  setupComplete : Bool
  trxFrame : Word
  currentFrame : Word

/-- What a state holds there. -/
def State.elsewhere (s : State) (f : FifoSel) : Elsewhere :=
  ⟨s.fifo (otherFifo f), s.available, s.setupComplete, s.trxFrame, s.currentFrame⟩

/-- The same state with `e` in its place. -/
def State.withElsewhere (s : State) (f : FifoSel) (e : Elsewhere) : State :=
  { s.setFifo (otherFifo f) e.other with
    available := e.available, setupComplete := e.setupComplete, trxFrame := e.trxFrame, currentFrame := e.currentFrame }

section
variable (s : State) (f : FifoSel) (e : Elsewhere)

theorem withElsewhere_elsewhere : s.withElsewhere f (s.elsewhere f) = s := by cases f <;> rfl

theorem elsewhere_withElsewhere : (s.withElsewhere f e).elsewhere f = e := by cases f <;> rfl

/-! ## Every update of the state commutes with replacing it -/

@[simp] theorem withElsewhere_fifo : (s.withElsewhere f e).fifo f = s.fifo f := by cases f <;> rfl

@[simp] theorem withElsewhere_cfg : (s.withElsewhere f e).cfg = s.cfg := by cases f <;> rfl

@[simp] theorem withElsewhere_draws : (s.withElsewhere f e).draws = s.draws := by cases f <;> rfl

@[simp] theorem withElsewhere_capacity : (s.withElsewhere f e).capacity f = s.capacity f :=
  congrArg (capacityOf · f) (withElsewhere_cfg s f e)

theorem emit_withElsewhere (os : List Output) : (s.withElsewhere f e).emit os = (s.emit os).withElsewhere f e := by
  cases f <;> rfl

theorem emitDiagIf_withElsewhere (b : Bool) (d : DiagCode) :
    (s.withElsewhere f e).emitDiagIf b d = (s.emitDiagIf b d).withElsewhere f e := by
  cases b
  · rfl
  · exact emit_withElsewhere s f e [.diag d]

theorem respond_withElsewhere (st : Status) (fl : Byte) (v : Int) (ex : List Word) (pl : List Nat) :
    (s.withElsewhere f e).respond st fl v ex pl = (s.respond st fl v ex pl).withElsewhere f e :=
  emit_withElsewhere s f e _

theorem raise_withElsewhere (st : Status) : (s.withElsewhere f e).raise st = (s.raise st).withElsewhere f e :=
  emit_withElsewhere s f e _

theorem setFifo_withElsewhere (F : Fifo) :
    (s.withElsewhere f e).setFifo f F = (s.setFifo f F).withElsewhere f e := by cases f <;> rfl

end

/-! ## Every FIFO operation commutes with replacing it -/

theorem execFifoWrite_withElsewhere {f : FifoSel} {count : Word} {ts : Timestamp} {data : List Sample} {s t : State}
    (h : execFifoWrite f count ts data s = .next t) (e : Elsewhere) :
    execFifoWrite f count ts data (s.withElsewhere f e) = .next (t.withElsewhere f e) := by
  unfold execFifoWrite at h ⊢
  simp only [withElsewhere_fifo, withElsewhere_capacity, raise_withElsewhere, emitDiagIf_withElsewhere,
    setFifo_withElsewhere, respond_withElsewhere] at h ⊢
  split_ifs at h ⊢ <;> cases h <;> rfl

theorem execFifoRead_withElsewhere {f : FifoSel} {maxCount : Word} {ts : Timestamp} {s t : State}
    (h : execFifoRead f maxCount ts s = .next t) (e : Elsewhere) :
    execFifoRead f maxCount ts (s.withElsewhere f e) = .next (t.withElsewhere f e) := by
  unfold execFifoRead at h ⊢
  simp only [withElsewhere_fifo, withElsewhere_capacity, withElsewhere_cfg, withElsewhere_draws, raise_withElsewhere,
    respond_withElsewhere] at h ⊢
  split_ifs at h ⊢ <;> cases h
  case neg => cases f <;> rfl
  all_goals rfl

/-- An operation on FIFO `f` does exactly the same whatever stands elsewhere (40_fifo.md R140). -/
theorem exec_withElsewhere {i : Instr} {f : FifoSel} (hi : instrFifo i = some f) {s t : State} (h : exec i s = .next t)
    (e : Elsewhere) : exec i (s.withElsewhere f e) = .next (t.withElsewhere f e) := by
  cases i <;> cases hi
  case fifoOpen =>
    cases h
    simp only [exec, execFifoOpen, setFifo_withElsewhere, respond_withElsewhere]
  case fifoClose =>
    cases h
    simp only [exec, execFifoClose, setFifo_withElsewhere, respond_withElsewhere]
  case fifoWrite => exact execFifoWrite_withElsewhere h e
  case fifoRead => exact execFifoRead_withElsewhere h e
  case fifoStatus =>
    cases h
    simp only [exec, execFifoStatus, withElsewhere_fifo, withElsewhere_capacity, respond_withElsewhere]

/-- An operation on FIFO `f` leaves alone what stands elsewhere. -/
theorem exec_keeps_elsewhere {i : Instr} {f : FifoSel} (hi : instrFifo i = some f) {s t : State} (h : exec i s = .next t) :
    t.elsewhere f = s.elsewhere f := by
  have hsame := exec_withElsewhere hi h (s.elsewhere f)
  rw [withElsewhere_elsewhere, h] at hsame
  injection hsame with ht
  rw [ht, elsewhere_withElsewhere]

/-- No operation writes the configuration or the requests still to come (`exec_answers`). -/
theorem exec_keeps_cfg_req {i : Instr} {s t : State} (h : exec i s = .next t) : t.cfg = s.cfg ∧ t.req = s.req := by
  rcases exec_answers i s with ⟨st, ds, -, -, -, hfail⟩ | ⟨u, evs, resp, hok, hcfg, hreq, -⟩
  · cases h.symm.trans hfail
    exact ⟨rfl, rfl⟩
  · cases h.symm.trans hok
    exact ⟨hcfg, hreq⟩

/-- Settles O20: the frame is `exec_keeps_elsewhere`, the noninterference `exec_withElsewhere`. -/
theorem fifoOperationActsOnOneInstance : Obligations.FifoOperationActsOnOneInstance := by
  intro i f s t G av su tf cf hi h
  obtain ⟨hcfg, hreq⟩ := exec_keeps_cfg_req h
  have hkeeps := exec_keeps_elsewhere hi h
  simp only [State.elsewhere, Elsewhere.mk.injEq] at hkeeps
  obtain ⟨hother, hav, hsu, htrx, hcur⟩ := hkeeps
  exact ⟨hother, hcfg, hreq, hav, hsu, htrx, hcur, exec_withElsewhere hi h ⟨G, av, su, tf, cf⟩⟩

end Sys2Proof.Machine
end

section
/-! PROOF. What a FIFO.WRITE that passes its checks does (40_fifo.md R144, R147, R148): its flags, the window after it, the
content of that window, and the slots it writes. -/

namespace Sys2Proof.Machine

open Sys2Proof

/-! ## The flags -/

/-- The flag byte holds `OVF`, `OVW` and `ZF` in bits 0, 1 and 2 (30_encoding.md R107). -/
theorem flagByte_getLsbD (ovf ovw zf : Bool) :
    (flagByte ovf ovw zf).getLsbD 0 = ovf ∧ (flagByte ovf ovw zf).getLsbD 1 = ovw ∧ (flagByte ovf ovw zf).getLsbD 2 = zf := by
  cases ovf <;> cases ovw <;> cases zf <;> decide

/-! ## The content of the window -/

section
variable {F : Fifo} {C : Nat} {n t : Int} {x : Int}

/-- A timestamp of the data holds its datum. -/
theorem sampleAt_written_data (h : WriteOk F C n t) {data : List Sample} (hd : (data.length : Int) = n)
    (h1 : t ≤ x) (h2 : x < t + n) : (F.written C n t data).sampleAt C x = data[(x - t).toNat]? := by
  obtain ⟨-, -, hO2, hE2, -⟩ := h.bounds
  have hread := read_written_data h data hd (i := (x - t).toNat) (by omega)
  rw [show t + ((x - t).toNat : Int) = x by omega] at hread
  rw [sampleAt_written h data (by omega) (by omega), hread]

/-- A retained timestamp outside the data holds what it held. -/
theorem sampleAt_written_old (h : WriteOk F C n t) {data : List Sample} (hd : (data.length : Int) = n)
    (h1 : writeO2 F C n t ≤ x) (h2 : x < writeE F t) (h3 : ¬ (t ≤ x ∧ x < t + n)) :
    (F.written C n t data).sampleAt C x = F.sampleAt C x := by
  have hx : x < writeE2 F n t := h2.trans_le (le_max_left ..)
  rw [sampleAt_written h data h1 hx, read_written_old h data hd h1 hx h3 h2, Fifo.sampleAt, if_pos (old_bounds h h1 h2)]

/-- A timestamp of the gap holds zero. -/
theorem sampleAt_written_gap (h : WriteOk F C n t) {data : List Sample} (hd : (data.length : Int) = n)
    (h1 : writeO2 F C n t ≤ x) (h2 : writeE F t ≤ x) (h3 : x < t) : (F.written C n t data).sampleAt C x = some 0 := by
  obtain ⟨-, -, -, hE2, -⟩ := h.bounds
  have hx : x < writeE2 F n t := by have := h.n_nonneg; omega
  rw [sampleAt_written h data h1 hx, read_written_zero h data hd h1 hx (by omega) h2]

/-- Every timestamp of the new window holds a value: it is one of the data, or retained, or in the gap. -/
theorem sampleAt_written_isSome (h : WriteOk F C n t) (hlive : F.live C) {data : List Sample} (hd : (data.length : Int) = n)
    (h1 : writeO2 F C n t ≤ x) (h2 : x < writeE2 F n t) : ((F.written C n t data).sampleAt C x).isSome = true := by
  by_cases hdata : t ≤ x ∧ x < t + n
  · rw [sampleAt_written_data h hd hdata.1 hdata.2, List.getElem?_eq_getElem (by omega)]
    rfl
  by_cases hold : x < writeE F t
  · obtain ⟨hx1, hx2⟩ := old_bounds h h1 hold
    rw [sampleAt_written_old h hd h1 hold hdata, Fifo.sampleAt, if_pos ⟨hx1, hx2⟩]
    exact live_sampleAt hlive hx1 hx2
  · have hgap : x < t := by
      unfold writeE2 at h2
      omega
    rw [sampleAt_written_gap h hd h1 (not_lt.1 hold) hgap]
    rfl

/-- A retained timestamp keeps its slot. -/
theorem written_slot_old (h : WriteOk F C n t) (data : List Sample) (h1 : writeO2 F C n t ≤ x) (h2 : x < writeE F t) :
    (F.written C n t data).slot C x = F.slot C x := by
  have hne : F.length.toNat ≠ 0 := by
    obtain ⟨hx1, hx2⟩ := old_bounds h h1 h2
    unfold Fifo.endTime at hx2
    omega
  rw [written_slot h, writeSlot_old F C n t x (writeE_of_nonempty F t hne)]

/-- A slot that is neither that of a newly live timestamp nor that of a datum holds what it held. -/
theorem read_written_other (h : WriteOk F C n t) {data : List Sample} (hd : (data.length : Int) = n) {a : Nat}
    (ha : ∀ x, writeO2 F C n t ≤ x → x < writeE2 F n t → (writeE F t ≤ x ∨ (t ≤ x ∧ x < t + n)) →
      (F.written C n t data).slot C x ≠ a) :
    Memory.read (F.written C n t data).store a = Memory.read F.store a := by
  obtain ⟨-, -, hO2, hE2, -⟩ := h.bounds
  refine (read_writeAll_other _ _ _ fun p hp => ?_).trans (read_writeAll_other _ _ _ fun p hp => ?_)
  · obtain ⟨i, hi, hslot, -⟩ := mem_dataCells hp
    rw [hslot, ← written_slot h data]
    exact ha _ (by omega) (by omega) (.inr (by omega))
  · obtain ⟨x, hfirst, hx, rfl⟩ := mem_zeroCells hp
    rw [← written_slot h data]
    exact ha x ((le_max_right ..).trans hfirst) hx (.inl ((le_max_left ..).trans hfirst))

end

theorem fifo_setFifo_after (s : State) (f : FifoSel) (G : Fifo) (os : List Output) :
    ((s.setFifo f G).after os).fifo f = G := by cases f <;> rfl

/-! ## The two statements -/

/-- The quantities of R144, with the emptiness test on the length field, are those of Machine/Operands.lean. -/
theorem writeWindow_eq {F : Fifo} {C : Nat} {n t O E E2 O2 : Int} (hO : O = if F.length = 0#32 then t else F.origin.toInt)
    (hE : E = O + F.length.toNat) (hE2 : E2 = max E (t + n)) (hO2 : O2 = max O (E2 - C)) :
    O = writeO F t ∧ E = writeE F t ∧ E2 = writeE2 F n t ∧ O2 = writeO2 F C n t := by
  rw [writeO_eq] at hO
  subst hO hE hE2 hO2
  exact ⟨rfl, rfl, rfl, rfl⟩

/-- Settles O26: the next state is that of `exec_fifoWrite_ok`, its fields are those of `Fifo.written`. -/
theorem fifoWriteMovesTheWindow : Obligations.FifoWriteMovesTheWindow := by
  intro f count ts data s F C n t O E E2 O2 hcfg hinv hopen h0 hC htop hfresh
  obtain ⟨hO, hE, hE2, hO2⟩ : O = writeO F t ∧ E = writeE F t ∧ E2 = writeE2 F n t ∧ O2 = writeO2 F C n t :=
    writeWindow_eq rfl rfl rfl rfl
  clear_value O E E2 O2
  subst hO hE hE2 hO2
  have hok : WriteOk F C n t := writeOk_of_checks (capacity_wf s f hcfg) hinv h0 hC htop ts rfl hfresh
  have hexec := exec_fifoWrite_ok f count ts data s hopen h0 hC htop hfresh
  simp only [flagOvw, flagOvf, decide_eq_true_eq] at hexec
  obtain ⟨hovf, hovw, hzf⟩ := flagByte_getLsbD (flagOvf F C n t) (flagOvw F n t) (flagZf F t)
  exact ⟨F.written C n t data, writeFlags F C n t, hexec, hopen, written_origin hok data, written_length hok data,
    written_endTime hok data, written_wcur hok data, hovf, hovw, hzf, flagByte_lt _ _ _⟩

/-- Settles O27: the three parts of the new window, and the slots outside them. -/
theorem fifoWriteContent : Obligations.FifoWriteContent := by
  intro f count ts data s F C n t O E E2 O2 hcfg hinv hopen h0 hC htop hfresh hdata
  obtain ⟨hO, hE, hE2, hO2⟩ : O = writeO F t ∧ E = writeE F t ∧ E2 = writeE2 F n t ∧ O2 = writeO2 F C n t :=
    writeWindow_eq rfl rfl rfl rfl
  clear_value O E E2 O2
  subst hO hE hE2 hO2
  have hok : WriteOk F C n t := writeOk_of_checks (capacity_wf s f hcfg) hinv h0 hC htop ts rfl hfresh
  obtain ⟨-, -, -, -, -, hlive, -⟩ := hinv
  refine ⟨_, exec_fifoWrite_ok f count ts data s hopen h0 hC htop hfresh, ?_⟩
  rw [fifo_setFifo_after]
  refine ⟨fun x hx1 hx2 => ⟨?_, ?_, ?_, ?_, ?_⟩, fun a ha => read_written_other hok hdata ha⟩
  · exact sampleAt_written_data hok hdata
  · exact sampleAt_written_old hok hdata hx1
  · exact sampleAt_written_gap hok hdata hx1
  · exact sampleAt_written_isSome hok hlive hdata hx1 hx2
  · exact written_slot_old hok data hx1

end Sys2Proof.Machine
end

section
/-! PROOF. The operations of the frame clock (41_frameclock.md R172 to R178): one rule per operation that says its next state,
then the setup sequence of R173 item by item, then the statements. -/

namespace Sys2Proof.Machine

open Sys2Proof

/-! ## What each operation does -/

/-- A successful response with flags 0 whose value is the word `w`. -/
theorem okRsp_toInt (n : Nat) (ex : List Word) (pl : List Nat) : okRsp (BitVec.ofNat 32 n).toInt ex pl = okRsp n ex pl := by
  simp only [okRsp, BitVec.ofInt_toInt, BitVec.ofInt_natCast]

/-- A heartbeat, with its response value as a number (R172, R174). -/
theorem exec_clkHeartbeat (v : Word) (s : State) :
    exec (.clkHeartbeat v) s = .next
      { s with
        available := s.available || !s.setupComplete, setupComplete := true, trxFrame := v,
        currentFrame := BitVec.ofNat 32 (heartbeatFrame s.cfg v.toNat),
        out := s.out ++ (heartbeatOutputs v s ++ [okRsp (heartbeatFrame s.cfg v.toNat) [] []]) } := by
  rw [← okRsp_toInt, ← List.append_assoc]
  exact congrArg Host.Outcome.next (heartbeat_eq v s)

/-- An advance moves the scheduling frame alone (R175). -/
theorem exec_clkAdvance (s : State) :
    exec .clkAdvance s = .next
      ({ s with currentFrame := BitVec.ofNat 32 (advanceFrame s.cfg s.currentFrame.toNat) }.after
        [okRsp (advanceFrame s.cfg s.currentFrame.toNat) [] []]) := by
  rw [← okRsp_toInt]
  rfl

/-- A timeout ends in Unavailable with one POWEROFF, whatever the state before it (R176). -/
theorem exec_clkTimeout (s : State) :
    exec .clkTimeout s = .next
      ({ s with available := false, setupComplete := false }.after
        [.trx .control (encCmdBytes .powerOff 0#32 0#32), .diag .heartbeatLost, okRsp 0 [] []]) := by
  simp only [exec, execClkTimeout, State.emitTrx, State.emitDiag, State.emit, respond_ok_eq, State.after, List.append_assoc,
    List.cons_append, List.nil_append]

/-- A status request appends its response and does nothing else (R178). -/
theorem exec_clkStatus (s : State) :
    exec .clkStatus s = .next (s.after [okRsp 0
      [BitVec.ofNat 32 s.sessionCode, (BitVec.ofBool s.available).zeroExtend 32, (BitVec.ofBool s.setupComplete).zeroExtend 32,
        s.trxFrame, s.currentFrame] []]) := rfl

/-! ## The session code -/

/-- The four codes of 10_state.md R38, as the word that CLK.STATUS reports. -/
theorem sessionCode_word (s : State) :
    BitVec.ofNat 32 s.sessionCode =
      if s.available then (if s.setupComplete then 2#32 else 1#32) else (if s.setupComplete then 3#32 else 0#32) := by
  unfold State.sessionCode
  cases s.available <;> cases s.setupComplete <;> rfl

/-- While the two bits agree the session is Unavailable or Operational (10_state.md R39). -/
theorem sessionCode_of_bits_eq {s : State} (h : s.available = s.setupComplete) : s.sessionCode = 0 ∨ s.sessionCode = 2 := by
  unfold State.sessionCode
  rw [h]
  cases s.setupComplete
  · exact .inl rfl
  · exact .inr rfl

/-! ## The datagrams of a heartbeat and of a timeout -/

theorem vector_toList_eight {α : Type} (v : Vector α 8) : v.toList = [v[0], v[1], v[2], v[3], v[4], v[5], v[6], v[7]] := by
  have h : v = Vector.ofFn fun i : Fin 8 => v[i] := by
    ext i hi
    simp
  conv_lhs => rw [h]
  rfl

/-- One command of the setup sequence as its CONTROL datagram (R173). -/
def setupCommand (k : Command) (a b : Word) : Output := .trx .control (encCmdBytes k a b)

/-- The sixteen datagrams of R173, the timeslots in ascending order. -/
theorem setupOutputs_eq (c : Config) :
    setupOutputs c = [
      setupCommand .powerOff 0#32 0#32, setupCommand .txTune c.txFreqKhz 0#32, setupCommand .rxTune c.rxFreqKhz 0#32,
      setupCommand .setTsc c.tsc 0#32, setupCommand .setBsic c.bsic 0#32, setupCommand .powerOn 0#32 0#32,
      setupCommand .setRxGain c.rxGainDb 0#32, setupCommand .setPower c.powerDb 0#32,
      setupCommand .setSlot 0#32 c.slots[0], setupCommand .setSlot 1#32 c.slots[1], setupCommand .setSlot 2#32 c.slots[2],
      setupCommand .setSlot 3#32 c.slots[3], setupCommand .setSlot 4#32 c.slots[4], setupCommand .setSlot 5#32 c.slots[5],
      setupCommand .setSlot 6#32 c.slots[6], setupCommand .setSlot 7#32 c.slots[7]] := by
  unfold setupOutputs setupSequence
  rw [vector_toList_eight]
  rfl

theorem heartbeatOutputs_setup (v : Word) {s : State} (h : s.setupComplete = false) :
    heartbeatOutputs v s = setupOutputs s.cfg := by
  rw [heartbeatOutputs, h]
  rfl

theorem heartbeatOutputs_frameInd (v : Word) {s : State} (h : s.setupComplete = true) :
    heartbeatOutputs v s = [.up (.frameInd (BitVec.ofNat 32 (heartbeatFrame s.cfg v.toNat)))] := if_pos h

/-- `"CMD POWEROFF"` and its NUL (42_codec.md R203). -/
theorem encCmdBytes_powerOff :
    encCmdBytes .powerOff 0#32 0#32 =
      [0x43#8, 0x4D#8, 0x44#8, 0x20#8, 0x50#8, 0x4F#8, 0x57#8, 0x45#8, 0x52#8, 0x4F#8, 0x46#8, 0x46#8, 0x00#8] := rfl

/-! ## The statements -/

/-- Settles O33: both cases are `exec_clkHeartbeat`. The first sets both bits and emits `setupOutputs_eq`; in the second the set
bit is written again. -/
theorem heartbeatTakesTheClock : Obligations.HeartbeatTakesTheClock := by
  intro v s c sum frame cmd
  refine ⟨rfl, fun hsetup => ?_, fun hsetup => ?_⟩
  · rw [exec_clkHeartbeat, heartbeatOutputs_setup v hsetup, setupOutputs_eq, hsetup, Bool.not_false, Bool.or_true]
    rfl
  · rw [exec_clkHeartbeat, heartbeatOutputs_frameInd v hsetup, hsetup, Bool.not_true, Bool.or_false, ← hsetup]
    rfl

/-- Settles O34. -/
theorem advanceStepsTheFrame : Obligations.AdvanceStepsTheFrame :=
  fun s => ⟨rfl, exec_clkAdvance s⟩

/-- Settles O36. -/
theorem timeoutMakesUnavailable : Obligations.TimeoutMakesUnavailable := by
  intro s
  rw [exec_clkTimeout, encCmdBytes_powerOff]
  exact ⟨rfl, rfl⟩

/-- Settles O37: the code and the two bits as words; the invariant of the unit makes the two bits agree. -/
theorem clockStatusReportsTheSession : Obligations.ClockStatusReportsTheSession := by
  intro s
  rw [exec_clkStatus, sessionCode_word, zeroExtend_ofBool, zeroExtend_ofBool]
  exact ⟨rfl, rfl, fun ⟨_, hbits⟩ => sessionCode_of_bits_eq hbits⟩

end Sys2Proof.Machine
end

section
/-! PROOF. The codec (42_codec.md R191 to R206): one rule per operation that says its answer, then the layout of the two burst
datagrams, the grammar of the clock text and the decimal form of an argument, then the statements. -/

namespace Sys2Proof.Machine

open Sys2Proof

/-! ## What each operation answers -/

theorem timeslotOk_of_le {ts : Byte} (h : ts.toNat ≤ 7) : timeslotOk ts = true :=
  decide_eq_true (Nat.lt_succ_of_le h)

/-- ENC.DL with a valid timeslot answers the datagram (R191). -/
theorem exec_encDl_ok {ts : Byte} (hts : ts.toNat ≤ 7) (gain : Byte) (fn : Word) (bits : List Byte) (s : State) :
    exec (.encDl ts gain fn bits) s = .next (s.after [okRsp 154 [] (itemsOf (encDlBytes ts fn gain bits))]) :=
  if_neg (ne_false_of_eq_true (timeslotOk_of_le hts))

/-- A datagram that passes both checks of R197. -/
theorem decodeUplink_ok {d : List Byte} (hlen : d.length = 158) (hts : (byteAt d 0).toNat ≤ 7) :
    decodeUplink d = .ok (decUlFields d) :=
  (if_neg (not_not_intro hlen)).trans (if_neg (ne_false_of_eq_true (timeslotOk_of_le hts)))

/-- DEC.UL of a valid datagram answers its fields, each widened to a word (R194). -/
theorem exec_decUl_ok {d : List Byte} {u : UlBurst} (h : decodeUplink d = .ok u) (s : State) :
    exec (.decUl d) s = .next (s.after [okRsp 148
      [BitVec.ofNat 32 u.timeslot.toNat, u.frameNumber, BitVec.ofInt 32 u.rssi.toInt, BitVec.ofInt 32 u.toaRaw.toInt]
      (itemsOf u.soft)]) := by
  simp only [exec, execDecUl, h, BitVec.ofNat_toNat]
  rfl

/-- RX.DATA of a valid datagram delivers its fields upward (43_session.md R234). -/
theorem exec_rxData_ok {d : List Byte} {u : UlBurst} (h : decodeUplink d = .ok u) (s : State) :
    exec (.rxData d) s = .next (s.after [.up (.ulBurst u), okRsp 148 [] []]) := by
  simp only [exec, execRxData, h, State.emitUp, State.emit, respond_ok_eq, State.after, List.append_assoc, List.cons_append,
    List.nil_append]
  rfl

/-- DEC.CLOCK of a clock text answers its value (R198). -/
theorem exec_decClock_ok {s : State} {d : List Byte} {v : Word} (h : decClockValue s.cfg d = some v) :
    exec (.decClock d) s = .next (s.after [okRsp 0 [v] []]) := by
  simp only [exec, execDecClock, h, respond_ok_eq]

/-- DEC.CLOCK of any other datagram drops it (R198). -/
theorem exec_decClock_malformed {s : State} {d : List Byte} (h : decClockValue s.cfg d = none) :
    exec (.decClock d) s = .next (s.after [failRsp .dropMalformed]) := by
  simp only [exec, execDecClock, h, raise_eq]

/-- ENC.CMD answers the text and its length (R202). -/
theorem exec_encCmd (k : Command) (a b : Word) (s : State) :
    exec (.encCmd k a b) s = .next (s.after [okRsp (encCmdBytes k a b).length [] (itemsOf (encCmdBytes k a b))]) := rfl

/-! ## The downlink datagram (R192) -/

/-- Reading a word's four bytes back most significant first gives the word. -/
theorem be32_bytes (w : Word) :
    be32 (w.extractLsb' 24 8) (w.extractLsb' 16 8) (w.extractLsb' 8 8) (w.extractLsb' 0 8) = w.toNat := by
  simp only [be32, BitVec.extractLsb'_toNat, Nat.shiftRight_eq_div_pow]
  omega

theorem length_encDlBytes (ts : Byte) (fn : Word) (gain : Byte) (bits : List Byte) :
    (encDlBytes ts fn gain bits).length = bits.length + 6 := rfl

/-- The payload follows the six bytes of the header. -/
theorem byteAt_encDlBytes_payload (ts : Byte) (fn : Word) (gain : Byte) (bits : List Byte) (i : Nat) :
    byteAt (encDlBytes ts fn gain bits) (6 + i) = byteAt bits i := by
  rw [Nat.add_comm]
  rfl

/-! ## The uplink fields (R195, R196) -/

theorem be16_lt (b0 b1 : Byte) : be16 b0 b1 < 65536 := by
  have h0 := b0.isLt
  have h1 := b1.isLt
  unfold be16
  omega

theorem be32_lt (b0 b1 b2 b3 : Byte) : be32 b0 b1 b2 b3 < 2 ^ 32 := by
  have h0 := b0.isLt
  have h1 := b1.isLt
  have h2 := b2.isLt
  have h3 := b3.isLt
  unfold be32
  omega

theorem decUlFields_frameNumber (d : List Byte) :
    (decUlFields d).frameNumber.toNat = be32 (byteAt d 1) (byteAt d 2) (byteAt d 3) (byteAt d 4) :=
  (BitVec.toNat_ofNat _ _).trans (Nat.mod_eq_of_lt (be32_lt ..))

/-- The negated magnitude of a byte fits 16 signed bits. -/
theorem decUlFields_rssi (d : List Byte) : (decUlFields d).rssi.toInt = -((byteAt d 5).toNat : Int) := by
  have hb := (byteAt d 5).isLt
  exact (BitVec.toInt_ofInt _).trans (Int.bmod_eq_of_le (by omega) (by omega))

/-- Two bytes read as a signed number: the top bit is that of the first byte. -/
theorem toInt_be16 (b0 b1 : Byte) :
    (BitVec.ofNat 16 (be16 b0 b1)).toInt = (be16 b0 b1 : Int) - (if b0.toNat < 128 then 0 else 65536) := by
  have hlt := be16_lt b0 b1
  have h1 := b1.isLt
  rw [BitVec.toInt_eq_toNat_cond, BitVec.toNat_ofNat, Nat.mod_eq_of_lt hlt]
  unfold be16 at hlt ⊢
  split_ifs <;> omega

theorem length_decUlFields_soft (d : List Byte) : (decUlFields d).soft.length = 148 := by
  simp [decUlFields]

/-- A soft value, 127 less a byte, fits 8 signed bits. -/
theorem decUlFields_soft (d : List Byte) {i : Nat} (hi : i < 148) :
    (byteAt (decUlFields d).soft i).toInt = 127 - ((byteAt d (8 + i)).toNat : Int) := by
  have hb := (byteAt d (8 + i)).isLt
  have hbyte : byteAt (decUlFields d).soft i = BitVec.ofInt 8 (127 - ((byteAt d (8 + i)).toNat : Int)) := by
    simp [byteAt, decUlFields, hi]
  rw [hbyte, BitVec.toInt_ofInt]
  exact Int.bmod_eq_of_le (by omega) (by omega)

/-! ## The clock text (R199 to R201) -/

theorem isDigit_iff (b : Byte) : isDigit b = true ↔ 0x30 ≤ b.toNat ∧ b.toNat ≤ 0x39 := decide_eq_true_iff

/-- A digit is not the terminator. -/
theorem ne_zero_of_digit {b : Byte} (h : 0x30 ≤ b.toNat) : b ≠ 0#8 := by
  rintro rfl
  exact absurd h (by decide)

/-- What stands after the text: nothing, or a 0x00 with anything after it. -/
def EndsText (tail : List Byte) : Prop := tail = [] ∨ tail.head? = some 0#8

/-- The text is the part of the datagram before such an end, when it holds no 0x00 itself. -/
theorem clockText_append {t tail : List Byte} (ht : ∀ b ∈ t, b ≠ 0#8) (htail : EndsText tail) : clockText (t ++ tail) = t := by
  have hend : clockText tail = [] := by
    rcases htail with rfl | hhead
    · rfl
    · obtain ⟨rest, rfl⟩ := List.head?_eq_some_iff.1 hhead
      rfl
  unfold clockText at hend ⊢
  rw [List.takeWhile_append_of_pos (by simpa using ht), hend, List.append_nil]

/-- Every datagram is its text and such an end. -/
theorem exists_eq_clockText_append (d : List Byte) : ∃ tail, d = clockText d ++ tail ∧ EndsText tail := by
  refine ⟨d.dropWhile (· != 0#8), List.takeWhile_append_dropWhile.symm, ?_⟩
  have hhead := List.head?_dropWhile_not (· != 0#8) d
  unfold EndsText
  cases hd : d.dropWhile (· != 0#8) with
  | nil => exact .inl rfl
  | cons b rest => simpa [hd] using hhead

/-- The texts that the parser gives the value `v`. -/
theorem clockTextValue_eq_some_iff (t : List Byte) (v : Word) :
    clockTextValue t = some v ↔ ∃ ds, t = clockPrefix ++ ds ∧ ds ≠ [] ∧
      (∀ b ∈ ds, 0x30 ≤ b.toNat ∧ b.toNat ≤ 0x39) ∧ decimalValue ds = v.toNat := by
  simp only [clockTextValue, List.all_eq_true, isDigit_iff]
  constructor
  · intro h
    split_ifs at h with hwf
    obtain ⟨hpre, hne, hdigits, hlt⟩ := hwf
    cases h
    have ht : t = clockPrefix ++ t.drop clockPrefix.length := by
      conv_lhs => rw [← List.take_append_drop clockPrefix.length t, hpre]
    exact ⟨_, ht, hne, hdigits, (BitVec.toNat_ofNat _ _ ▸ Nat.mod_eq_of_lt hlt).symm⟩
  · rintro ⟨ds, rfl, hne, hdigits, hv⟩
    rw [List.take_left, List.drop_left, hv, BitVec.ofNat_toNat, BitVec.setWidth_eq]
    exact if_pos ⟨rfl, hne, hdigits, v.isLt⟩

/-- The text of the grammar holds no 0x00. -/
theorem clockPrefix_append_ne_zero {ds : List Byte} (hds : ∀ b ∈ ds, 0x30 ≤ b.toNat ∧ b.toNat ≤ 0x39) :
    ∀ b ∈ clockPrefix ++ ds, b ≠ 0#8 := by
  intro b hb
  rcases List.mem_append.1 hb with hb | hb
  · have hletters : ∀ b ∈ clockPrefix, b ≠ 0#8 := by decide
    exact hletters b hb
  · exact ne_zero_of_digit (hds b hb).1

/-- The parser gives a datagram the value `v` exactly when the grammar does, under either reading of `STRICT_CLOCK_TEXT`. -/
theorem decClockValue_eq_some_iff (c : Config) (d : List Byte) (v : Word) :
    decClockValue c d = some v ↔ ClockGrammar c d v := by
  unfold decClockValue
  constructor
  · intro h
    split_ifs at h with hstrict
    obtain ⟨ds, htext, hne, hdigits, hv⟩ := (clockTextValue_eq_some_iff _ _).1 h
    cases hc : c.strictClockText with
    | true =>
      have hd : d = clockText d ++ [0#8] := by simpa [hc] using hstrict
      exact ⟨ds, [0#8], hd.trans (by rw [htext]; rfl), hne, hdigits, hv, by simp [hc]⟩
    | false =>
      obtain ⟨tail, hd, htail⟩ := exists_eq_clockText_append d
      exact ⟨ds, tail, hd.trans (by rw [htext]; rfl), hne, hdigits, hv, by simpa [hc, EndsText] using htail⟩
  · rintro ⟨ds, tail, hd, hne, hdigits, hv, htail⟩
    have hend : EndsText tail := by
      split_ifs at htail
      · exact .inr (htail ▸ rfl)
      · exact htail
    have htext : clockText d = clockPrefix ++ ds := hd ▸ clockText_append (clockPrefix_append_ne_zero hdigits) hend
    have hstrict : ¬ (c.strictClockText && (d != clockText d ++ [0#8])) = true := by
      intro h
      obtain ⟨hc, hother⟩ := Bool.and_eq_true_iff.1 h
      rw [if_pos hc] at htail
      exact bne_iff_ne.1 hother (by rw [htext, hd, htail]; rfl)
    rw [if_neg hstrict]
    exact (clockTextValue_eq_some_iff _ _).2 ⟨ds, htext, hne, hdigits, hv⟩

/-! ## Decimal numbers (R204) -/

theorem digitByte_toNat {k : Nat} (hk : k < 10) : (digitByte k).toNat = 0x30 + k :=
  (BitVec.toNat_ofNat _ _).trans (Nat.mod_eq_of_lt (by omega))

/-- Only the digit of zero is `0`. -/
theorem digitByte_ne_zero {k : Nat} (hpos : 0 < k) (hk : k < 10) : digitByte k ≠ 0x30#8 := by
  intro h
  have hnum := congrArg BitVec.toNat h
  rw [digitByte_toNat hk, BitVec.toNat_ofNat] at hnum
  omega

theorem decimalValue_append_digit (ds : List Byte) {k : Nat} (hk : k < 10) :
    decimalValue (ds ++ [digitByte k]) = decimalValue ds * 10 + k := by
  simp only [decimalValue, List.foldl_append, List.foldl_cons, List.foldl_nil, digitByte_toNat hk, Nat.add_sub_cancel_left]

theorem decimalValue_digit {k : Nat} (hk : k < 10) : decimalValue [digitByte k] = k :=
  (decimalValue_append_digit [] hk).trans (Nat.zero_add k)

theorem decimalDigits_ne_nil (fuel n : Nat) : decimalDigits fuel n ≠ [] := by
  cases fuel with
  | zero => exact List.cons_ne_nil _ _
  | succ fuel =>
    unfold decimalDigits
    split_ifs
    · exact List.cons_ne_nil _ _
    · exact List.append_ne_nil_of_right_ne_nil _ (List.cons_ne_nil _ _)

/-- Only digits are written. -/
theorem decimalDigits_digit (fuel n : Nat) : ∀ b ∈ decimalDigits fuel n, 0x30 ≤ b.toNat ∧ b.toNat ≤ 0x39 := by
  have hdigit : ∀ {k : Nat}, k < 10 → ∀ b ∈ [digitByte k], 0x30 ≤ b.toNat ∧ b.toNat ≤ 0x39 := by
    intro k hk b hb
    rw [List.mem_singleton.1 hb, digitByte_toNat hk]
    omega
  induction fuel generalizing n with
  | zero => exact hdigit (Nat.mod_lt _ (by decide))
  | succ fuel ih =>
    unfold decimalDigits
    split_ifs with hn
    · exact hdigit hn
    · intro b hb
      exact (List.mem_append.1 hb).elim (ih _ b) (hdigit (Nat.mod_lt _ (by decide)) b)

/-- The digits stand for the number, when there are places enough for it. -/
theorem decimalValue_decimalDigits (fuel : Nat) {n : Nat} (hn : n < 10 ^ (fuel + 1)) :
    decimalValue (decimalDigits fuel n) = n := by
  induction fuel generalizing n with
  | zero =>
    have hlt : n < 10 := hn
    rw [decimalDigits, Nat.mod_eq_of_lt hlt, decimalValue_digit hlt]
  | succ fuel ih =>
    unfold decimalDigits
    split_ifs with hsmall
    · exact decimalValue_digit hsmall
    · rw [decimalValue_append_digit _ (Nat.mod_lt _ (by decide)), ih (by rw [pow_succ] at hn; omega)]
      omega

/-- No positive number starts with a zero. -/
theorem decimalDigits_head?_ne (fuel : Nat) {n : Nat} (hpos : 0 < n) (hn : n < 10 ^ (fuel + 1)) :
    (decimalDigits fuel n).head? ≠ some 0x30#8 := by
  induction fuel generalizing n with
  | zero =>
    have hlt : n < 10 := hn
    simpa [decimalDigits, Nat.mod_eq_of_lt hlt] using digitByte_ne_zero hpos hlt
  | succ fuel ih =>
    unfold decimalDigits
    split_ifs with hsmall
    · simpa using digitByte_ne_zero hpos hsmall
    · rw [List.head?_append_of_ne_nil _ (decimalDigits_ne_nil _ _)]
      exact ih (by omega) (by rw [pow_succ] at hn; omega)

/-- The formatter writes a decimal text of every signed 32-bit word. -/
theorem decimalText_decimalArg (w : Word) : DecimalText w.toInt (decimalArg w.toInt) := by
  have hplaces : w.toInt.natAbs < 10 ^ (9 + 1) := by
    have hlt := @BitVec.toInt_lt 32 w
    have hle := @BitVec.le_toInt 32 w
    omega
  refine ⟨decimalDigits 9 w.toInt.natAbs, rfl, decimalDigits_ne_nil _ _, decimalDigits_digit _ _,
    decimalValue_decimalDigits 9 hplaces, fun hhead => ?_⟩
  rcases Nat.eq_zero_or_pos w.toInt.natAbs with hzero | hpos
  · rw [hzero]
    rfl
  · exact absurd hhead (decimalDigits_head?_ne 9 hpos hplaces)

/-! ## The command text (R203, R205) -/

section
variable {k : Command} {a b : Word}

theorem encCmdBytes_noArgs (h : usedArgs k a.toInt b.toInt = []) :
    encCmdBytes k a b = ascii ("CMD ".toList ++ commandName k) ++ [0#8] := by
  simp [encCmdBytes, signedWord, h, ascii]

theorem encCmdBytes_oneArg {x : Int} (h : usedArgs k a.toInt b.toInt = [x]) :
    encCmdBytes k a b = ascii ("CMD ".toList ++ commandName k ++ [' ']) ++ decimalArg x ++ [0#8] := by
  simp [encCmdBytes, signedWord, h, ascii]

theorem encCmdBytes_twoArgs {x y : Int} (h : usedArgs k a.toInt b.toInt = [x, y]) :
    encCmdBytes k a b =
      ascii ("CMD ".toList ++ commandName k ++ [' ']) ++ decimalArg x ++ ascii [' '] ++ decimalArg y ++ [0#8] := by
  simp [encCmdBytes, signedWord, h, ascii]

end

/-! ## The statements -/

/-- Settles O41: the datagram is `encDlBytes`; its header bytes stand in place and its payload follows them. -/
theorem encodeDownlinkLayout : Obligations.EncodeDownlinkLayout := by
  intro ts gain fn bits s hts hbits
  exact ⟨encDlBytes ts fn gain bits, exec_encDl_ok hts gain fn bits s,
    (length_encDlBytes ts fn gain bits).trans (congrArg (· + 6) hbits), rfl, be32_bytes fn, rfl,
    fun i _ => byteAt_encDlBytes_payload ts fn gain bits i⟩

/-- Settles O43: both operations answer `decUlFields`, field by field. -/
theorem uplinkBurstIsDecoded : Obligations.UplinkBurstIsDecoded := by
  intro d s hlen hts
  have hok := decodeUplink_ok hlen hts
  exact ⟨decUlFields d, exec_decUl_ok hok s, exec_rxData_ok hok s, rfl, decUlFields_frameNumber d, decUlFields_rssi d,
    toInt_be16 _ _, length_decUlFields_soft d, fun i hi => decUlFields_soft d hi⟩

/-- Settles O45: the parser and the grammar give the same values, and a datagram without a value is malformed. -/
theorem clockTextIsParsedByItsGrammar : Obligations.ClockTextIsParsedByItsGrammar := by
  intro d s
  refine ⟨rfl, fun v hv => exec_decClock_ok ((decClockValue_eq_some_iff _ _ _).2 hv), fun hnone => ?_⟩
  refine exec_decClock_malformed (Option.eq_none_iff_forall_ne_some.2 fun v hv => ?_)
  exact hnone v ((decClockValue_eq_some_iff _ _ _).1 hv)

/-- Settles O46: the text is `encCmdBytes`, its arguments `decimalArg`; a command has the form of the number of its arguments. -/
theorem commandTextForm : Obligations.CommandTextForm := by
  intro k a b s
  refine ⟨by cases k <;> rfl, decimalArg a.toInt, decimalArg b.toInt, encCmdBytes k a b, decimalText_decimalArg a,
    decimalText_decimalArg b, encCmd_length k a b, exec_encCmd k a b s, ?_⟩
  cases k with
  | powerOff | powerOn => exact encCmdBytes_noArgs rfl
  | rxTune | txTune | setTsc | setBsic | setRxGain | setPower => exact encCmdBytes_oneArg rfl
  | setSlot => exact encCmdBytes_twoArgs rfl

/-- Settles O47: closed texts, each computed by the formatter. -/
theorem sampleCommandTexts : Obligations.SampleCommandTexts :=
  ⟨encCmdBytes_powerOff, rfl, rfl, rfl, rfl, rfl, rfl, rfl, rfl, rfl⟩

end Sys2Proof.Machine
end

section
/-! PROOF. The session (43_session.md R222 to R234): one rule per outcome of each operation that says its next state, then the
statements. The checks and values are those of the codec, so the rules here start from the codec's. -/

namespace Sys2Proof.Machine

open Sys2Proof

/-! ## Outputs in order -/

/-- Outputs emitted one after the other are emitted in one run. Every operation below ends so: a datagram, an event or a
diagnostic, then its response. -/
theorem after_after (s : State) (os os' : List Output) : (s.after os).after os' = s.after (os ++ os') := by
  simp only [State.after, List.append_assoc]

/-- An answer that only appends one output determines that output. -/
theorem output_of_next_after_eq {s : State} {o o' : Output} (h : (.next (s.after [o]) : Result) = .next (s.after [o'])) :
    o = o' := by
  have hstate : s.after [o] = s.after [o'] := Host.Outcome.next.inj h
  have hout : s.out ++ [o] = s.out ++ [o'] := congrArg State.out hstate
  exact List.singleton_injective (List.append_cancel_left hout)

/-! ## Sending (R222 to R225) -/

theorem timeslotOk_of_gt {ts : Byte} (h : 7 < ts.toNat) : timeslotOk ts = false :=
  decide_eq_false (Nat.not_lt_of_ge h)

/-- ENC.DL refuses a timeslot above 7 (42_codec.md R191). -/
theorem exec_encDl_badTimeslot {ts : Byte} (hts : 7 < ts.toNat) (gain : Byte) (fn : Word) (bits : List Byte) (s : State) :
    exec (.encDl ts gain fn bits) s = .next (s.after [failRsp .invalidArg]) :=
  if_pos (timeslotOk_of_gt hts)

/-- A command that the gate of R222 lets through is sent as its text. -/
theorem exec_sessSendCmd_sent {k : Command} {s : State} (hgate : s.available = true ∨ k = .powerOff) (a b : Word) :
    exec (.sessSendCmd k a b) s =
      .next (s.after [.trx .control (encCmdBytes k a b), okRsp (encCmdBytes k a b).length [] []]) := by
  have hpass : ¬ (s.available = false ∧ k ≠ .powerOff) := by
    rintro ⟨hdown, hother⟩
    exact hgate.elim (ne_true_of_eq_false hdown) hother
  exact (if_neg hpass).trans (congrArg Host.Outcome.next (after_after ..))

/-- Every other command is refused with its diagnostic (R223). -/
theorem exec_sessSendCmd_refused {k : Command} {s : State} (hdown : s.available = false) (hother : k ≠ .powerOff) (a b : Word) :
    exec (.sessSendCmd k a b) s = .next (s.after [.diag .refusedCmd, failRsp .refused]) :=
  (if_pos ⟨hdown, hother⟩).trans (congrArg Host.Outcome.next (after_after ..))

section
variable {ts : Byte} (gain : Byte) (fn : Word) (bits : List Byte) {s : State}

/-- The timeslot is checked before availability (R225). -/
theorem exec_sessSendBurst_badTimeslot (hts : 7 < ts.toNat) :
    exec (.sessSendBurst ts gain fn bits) s = .next (s.after [failRsp .invalidArg]) :=
  if_pos (timeslotOk_of_gt hts)

/-- A burst for a valid timeslot is refused while Unavailable (R224). -/
theorem exec_sessSendBurst_refused (hts : ts.toNat ≤ 7) (hdown : s.available = false) :
    exec (.sessSendBurst ts gain fn bits) s = .next (s.after [.diag .refusedBurst, failRsp .refused]) :=
  (if_neg (ne_false_of_eq_true (timeslotOk_of_le hts))).trans
    ((if_pos hdown).trans (congrArg Host.Outcome.next (after_after ..)))

/-- A burst that passes both checks is sent as its downlink datagram (R224). -/
theorem exec_sessSendBurst_sent (hts : ts.toNat ≤ 7) (hup : s.available = true) :
    exec (.sessSendBurst ts gain fn bits) s =
      .next (s.after [.trx .data (encDlBytes ts fn gain bits), okRsp 154 [] []]) :=
  (if_neg (ne_false_of_eq_true (timeslotOk_of_le hts))).trans
    ((if_neg (ne_false_of_eq_true hup)).trans (congrArg Host.Outcome.next (after_after ..)))

end

/-! ## Receiving (R228 to R234) -/

/-- RX.CLOCK of a clock text is a heartbeat with its value (R228). -/
theorem exec_rxClock_ok {s : State} {d : List Byte} {v : Word} (h : decClockValue s.cfg d = some v) :
    exec (.rxClock d) s = exec (.clkHeartbeat v) s := by
  simp only [exec, execRxClock, h, execClkHeartbeat]

/-- RX.CLOCK of any other datagram drops it with its diagnostic (R229). -/
theorem exec_rxClock_malformed {s : State} {d : List Byte} (h : decClockValue s.cfg d = none) :
    exec (.rxClock d) s = .next (s.after [.diag .dropMalformed, failRsp .dropMalformed]) := by
  have hdrop : exec (.rxClock d) s = .next ((s.emitDiag .dropMalformed).raise .dropMalformed) := by
    simp only [exec, execRxClock, h]
  exact hdrop.trans (congrArg Host.Outcome.next (after_after ..))

/-- The parser drops exactly the datagrams that stand for no value in the grammar. -/
theorem decClockValue_eq_none_iff (c : Config) (d : List Byte) :
    decClockValue c d = none ↔ ∀ v : Word, ¬ ClockGrammar c d v := by
  simp only [Option.eq_none_iff_forall_ne_some, ne_eq, decClockValue_eq_some_iff]

/-- RX.CTRL appends its diagnostic and its response (R231). -/
theorem exec_rxCtrl (d : List Byte) (s : State) :
    exec (.rxCtrl d) s = .next (s.after [.diag .ctrlResponse, okRsp 0 [] []]) :=
  congrArg Host.Outcome.next (after_after ..)

theorem decodeUplink_badLength {d : List Byte} (hlen : d.length ≠ 158) : decodeUplink d = .error .dropLength := if_pos hlen

theorem decodeUplink_badTimeslot {d : List Byte} (hlen : d.length = 158) (hts : 7 < (byteAt d 0).toNat) :
    decodeUplink d = .error .dropTimeslot :=
  (if_neg (not_not_intro hlen)).trans (if_pos (timeslotOk_of_gt hts))

/-- DEC.UL of a datagram that fails a check answers the status of that check (42_codec.md R197). -/
theorem exec_decUl_error {d : List Byte} {st : Status} (h : decodeUplink d = .error st) (s : State) :
    exec (.decUl d) s = .next (s.after [failRsp st]) := by
  simp only [exec, execDecUl, h, raise_eq]

/-- RX.DATA of a datagram that fails a check drops it with the diagnostic and the status of that check (R233). -/
theorem exec_rxData_error {d : List Byte} {st : Status} (h : decodeUplink d = .error st) (s : State) :
    exec (.rxData d) s = .next (s.after [.diag (uplinkDiag st), failRsp st]) := by
  have hdrop : exec (.rxData d) s = .next ((s.emitDiag (uplinkDiag st)).raise st) := by
    simp only [exec, execRxData, h]
  exact hdrop.trans (congrArg Host.Outcome.next (after_after ..))

/-! ## The statements -/

/-- Settles O51: a text of the grammar has its value in the parser too, and RX.CLOCK hands that value to the heartbeat; a datagram
outside the grammar has no value. -/
theorem receivedClockIsAHeartbeat : Obligations.ReceivedClockIsAHeartbeat := by
  intro d s
  refine ⟨rfl, fun v hv => ?_, fun hnone => exec_rxClock_malformed ((decClockValue_eq_none_iff _ _).2 hnone)⟩
  have hbeat := exec_rxClock_ok ((decClockValue_eq_some_iff _ _ _).2 hv)
  exact ⟨hbeat, _, hbeat.trans (exec_clkHeartbeat v s), rfl, rfl, rfl⟩

/-- Settles O44: both operations answer the status of the check that fails. -/
theorem badUplinkDatagramIsDropped : Obligations.BadUplinkDatagramIsDropped := by
  intro d s
  refine ⟨fun hlen => ?_, fun hlen hts => ?_⟩
  · have herr := decodeUplink_badLength hlen
    exact ⟨exec_decUl_error herr s, exec_rxData_error herr s⟩
  · have herr := decodeUplink_badTimeslot hlen hts
    exact ⟨exec_decUl_error herr s, exec_rxData_error herr s⟩

/-- Settles O48: the two clauses are the two sides of the gate. -/
theorem sendCommandGate : Obligations.SendCommandGate := by
  intro k a b s
  exact ⟨by cases k <;> rfl, fun hgate => exec_sessSendCmd_sent hgate a b,
    fun hdown hother => exec_sessSendCmd_refused hdown hother a b⟩

/-- Settles O49: one rule per outcome, in the order of the checks. -/
theorem sendBurstChecksThenSends : Obligations.SendBurstChecksThenSends := by
  intro ts gain fn bits s
  exact ⟨rfl, exec_sessSendBurst_badTimeslot gain fn bits, exec_sessSendBurst_refused gain fn bits,
    exec_sessSendBurst_sent gain fn bits⟩

/-- Settles O50: an OK answer of ENC.DL means a valid timeslot, since the other answer is a failure; then the codec's payload and
the datagram sent are both `encDlBytes`. ENC.CMD always answers `encCmdBytes`, the text SESS.SENDCMD sends. -/
theorem sessionSendsWhatTheCodecReturns : Obligations.SessionSendsWhatTheCodecReturns := by
  intro ts gain fn bits k a b s v p
  constructor
  · intro hcodec hup
    rcases Nat.lt_or_ge 7 ts.toNat with hbad | hts
    · rw [exec_encDl_badTimeslot hbad] at hcodec
      cases output_of_next_after_eq hcodec
    · rw [exec_encDl_ok hts] at hcodec
      cases output_of_next_after_eq hcodec
      exact ⟨encDlBytes ts fn gain bits, rfl, exec_sessSendBurst_sent gain fn bits hts hup⟩
  · intro hcodec hgate
    rw [exec_encCmd] at hcodec
    cases output_of_next_after_eq hcodec
    exact ⟨encCmdBytes k a b, rfl, exec_sessSendCmd_sent hgate a b⟩

/-- Settles O52. -/
theorem controlDatagramHasNoEffect : Obligations.ControlDatagramHasNoEffect :=
  fun d s => ⟨rfl, exec_rxCtrl d s⟩

end Sys2Proof.Machine
end

section
/-! PROOF. The state after reset (70_reset_and_hazards.md R280). -/

namespace Sys2Proof.Machine

open Sys2Proof

/-- Reset makes both instances the closed empty one. -/
@[simp] theorem resetWith_fifo (c : Config) (f : FifoSel) : (State.resetWith c).fifo f = emptyFifo false := by
  cases f <;> rfl

/-- An empty instance, open or closed, has no slot that holds a value. -/
@[simp] theorem read_emptyFifo_store (b : Bool) (a : Nat) : Memory.read (emptyFifo b).store a = none := read_nil a

/-- The session code is 0 after reset: neither of its two bits is set. -/
@[simp] theorem resetWith_sessionCode (c : Config) : (State.resetWith c).sessionCode = 0 := rfl

/-- Settles O19: both instances are `emptyFifo false`, and every other field has its value of R280 in `State.resetWith`. -/
theorem resetStateIsTheSpecs : Obligations.ResetStateIsTheSpecs := by
  intro c f
  dsimp only
  rw [resetWith_fifo]
  exact ⟨rfl, rfl, rfl, rfl, read_emptyFifo_store false, rfl, rfl, rfl, rfl, resetWith_sessionCode c, resetWith_cfg c, rfl, rfl⟩

end Sys2Proof.Machine
end

section
/-! PROOF. The encoding (30_encoding.md R101 to R113): the decoder and the encoder are inverse to each other, each row of the opcode
table is the decoder's header, and the command ids. First the header fields of every instruction and of every row. -/

namespace Sys2Proof

open Sys2Proof.Machine

/-! ## Headers -/

/-- A header without `B` and `Z`, written with its low half as one field. -/
theorem append_zero_eq_header (op a : Byte) : (op ++ a ++ 0#16 : BitVec 32) = header op a 0#8 0#8 := by
  apply BitVec.eq_of_getLsbD_eq
  intro i hi
  simp only [header, BitVec.getLsbD_append]
  interval_cases i <;> simp

/-- Two headers are equal when their four fields are. -/
theorem header_inj {op a b z op' a' b' z' : Byte} :
    header op a b z = header op' a' b' z' ↔ op = op' ∧ a = a' ∧ b = b' ∧ z = z' := by
  constructor
  · intro h
    have hop := congrArg headerOp h
    have ha := congrArg headerA h
    have hb := congrArg headerB h
    have hz := congrArg headerZ h
    simp only [headerOp_header, headerA_header, headerB_header, headerZ_header] at hop ha hb hz
    exact ⟨hop, ha, hb, hz⟩
  · rintro ⟨rfl, rfl, rfl, rfl⟩
    rfl

theorem opcodeOfByte_eq_some_iff (b : Byte) (o : Opcode) : opcodeOfByte b = some o ↔ b = o.byte :=
  ⟨fun h => (byte_of_opcodeOfByte b o h).symm, fun h => h ▸ opcodeOfByte_byte o⟩

/-! ## Decoding an encoded instruction -/

/-- `decode_of_checks` for a header given by its fields. -/
theorem decode_header (c : Config) (o : Opcode) (a b : Byte) (ws : List Word) (items : List Nat)
    (hb : o.format = .burst ∨ b = 0#8) (ha : aLegal o a = true) (hw : ws.length = o.format.operandWords)
    (hd : o.format = .dg → (operandWord ws 0).toNat ≤ maxDgram) (hl : items.length = payloadLength o ws)
    (hi : ∀ x ∈ items, x < 2 ^ itemBits c o) :
    decode c ⟨header o.byte a b 0#8 :: ws, items⟩ = .ok (build o (header o.byte a b 0#8) ws items) :=
  (decode_legal c o a b ws items hb ha).trans (decodeBody_ok c o _ ws items hw hd hl hi)

/-- A selector is legal where a FIFO is selected (R111). -/
theorem aLegal_fifoSelByte (f : FifoSel) : aLegal .fifoWrite (fifoSelByte f) = true := by cases f <;> rfl

/-- The ids of the nine commands are legal (R112). -/
theorem aLegal_commandId (k : Command) : aLegal .encCmd k.id = true := by cases k <;> rfl

/-- A datagram's items have the length its length word says (R103). -/
theorem length_itemsOf_eq_lengthWord {d : List Byte} (h : d.length ≤ maxDgram) :
    (itemsOf d).length = (lengthWord d).toNat := by
  rw [length_itemsOf, lengthWord_toNat d h]

/-- The datagram of a well-formed receive or decode request (R113). -/
theorem dgram_le_of_wellFormed {c : Config} {i : Instr} {d : List Byte}
    (hi : i ∈ [Instr.decUl d, .decClock d, .rxClock d, .rxCtrl d, .rxData d]) (h : WellFormed c i = true) :
    d.length ≤ maxDgram := by
  simp only [List.mem_cons, List.not_mem_nil, or_false] at hi
  rcases hi with rfl | rfl | rfl | rfl | rfl <;>
    simpa [WellFormed, payloadLenOk, dgramLenOk, itemWidthOk] using h

/-- The decoder reads from the encoder's request the instruction encoded, format by format. -/
theorem decode_encode {c : Config} {i : Instr} (h : WellFormed c i = true) : decode c (encode i) = .ok i := by
  cases i with
  | fifoOpen f | fifoClose f | fifoStatus f =>
    refine Eq.trans (decode_header c _ _ _ _ _ (.inr rfl) (aLegal_fifoSelByte f) rfl nofun rfl nofun) ?_
    simp only [build, headerA_header, fifoSelOf_byte]
  | fifoWrite f n t data =>
    obtain ⟨hlen, hfit⟩ := wellFormed_fifoWrite h
    refine Eq.trans (decode_header c _ _ _ _ _ (.inr rfl) (aLegal_fifoSelByte f) rfl nofun hlen hfit) ?_
    simp only [build, headerA_header, fifoSelOf_byte, operandWord_zero, operandWord_succ, joinWords_high_low]
  | fifoRead f m t =>
    refine Eq.trans (decode_header c _ _ _ _ _ (.inr rfl) (aLegal_fifoSelByte f) rfl nofun rfl nofun) ?_
    simp only [build, headerA_header, fifoSelOf_byte, operandWord_zero, operandWord_succ, joinWords_high_low]
  | clkHeartbeat v => exact decode_header c _ _ _ _ _ (.inr rfl) rfl rfl nofun rfl nofun
  | clkAdvance | clkTimeout | clkStatus => exact decode_header c _ _ _ _ _ (.inr rfl) rfl rfl nofun rfl nofun
  | encCmd k a b | sessSendCmd k a b =>
    refine Eq.trans (decode_header c _ _ _ _ _ (.inr rfl) (aLegal_commandId k) rfl nofun rfl nofun) ?_
    simp only [build, headerA_header, commandOfId_id, operandWord_zero, operandWord_succ]
  | encDl ts g fn bits | sessSendBurst ts g fn bits =>
    have hlen : (itemsOf bits).length = burstLen := by
      simpa [WellFormed, payloadLenOk, dgramLenOk, itemWidthOk] using h
    refine Eq.trans (decode_header c _ _ _ _ _ (.inl rfl) rfl rfl nofun hlen (itemsOf_lt bits)) ?_
    simp only [build, headerA_header, headerB_header, operandWord_zero, bytesOf_itemsOf]
  | decUl d | decClock d | rxClock d | rxCtrl d | rxData d =>
    have hd := dgram_le_of_wellFormed (d := d) (by simp) h
    refine Eq.trans (decode_header c _ _ _ _ _ (.inr rfl) rfl rfl (fun _ => (lengthWord_toNat d hd).trans_le hd)
      (length_itemsOf_eq_lengthWord hd) (itemsOf_lt d)) ?_
    simp only [build, bytesOf_itemsOf]

/-- Settles O1 (`decode_encode`). -/
theorem decodeOfEncodeGivesTheInstruction : Obligations.DecodeOfEncodeGivesTheInstruction :=
  fun _ _ h => decode_encode h

/-! ## Encoding a decoded request -/

theorem eq_header_of_fields {h : Word} {o : Opcode} {b : Byte} (ho : opcodeOfByte (headerOp h) = some o)
    (hz : headerZ h = 0#8) (hb : headerB h = b) : h = header o.byte (headerA h) b 0#8 := by
  rw [← (opcodeOfByte_eq_some_iff _ _).1 ho, ← hz, ← hb, header_fields]

/-- The length word of a payload that has the length of its length word (R103). -/
theorem lengthWord_bytesOf {items : List Nat} {w : Word} (h : items.length = w.toNat) : lengthWord (bytesOf items) = w := by
  rw [lengthWord, length_bytesOf, h, BitVec.ofNat_toNat, BitVec.setWidth_eq]

/-- Encoding what `build` makes of a legal header and of words and items that pass the checks gives them back. -/
theorem encode_build {c : Config} {h : Word} {o : Opcode} {ws : List Word} {items : List Nat}
    (ho : opcodeOfByte (headerOp h) = some o) (hz : headerZ h = 0#8) (hb : o.format = .burst ∨ headerB h = 0#8)
    (ha : aLegal o (headerA h) = true) (hw : ws.length = o.format.operandWords) (hl : items.length = payloadLength o ws)
    (hi : ∀ x ∈ items, x < 2 ^ itemBits c o) : encode (build o h ws items) = ⟨h :: ws, items⟩ := by
  have hhead := eq_header_of_fields ho hz rfl
  cases o with
  | fifoOpen | fifoClose | fifoStatus =>
    have hb := hb.resolve_left nofun
    have ha : headerA h = 0#8 ∨ headerA h = 1#8 := by simpa [aLegal] using ha
    obtain rfl := List.eq_nil_of_length_eq_zero hw
    obtain rfl := List.eq_nil_of_length_eq_zero hl
    rw [hhead, hb]
    simp only [build, encode, headerA_header, fifoSelByte_of _ ha]
  | fifoRead =>
    have hb := hb.resolve_left nofun
    have ha : headerA h = 0#8 ∨ headerA h = 1#8 := by simpa [aLegal] using ha
    obtain ⟨w1, w2, w3, rfl⟩ := List.length_eq_three.1 hw
    obtain rfl := List.eq_nil_of_length_eq_zero hl
    rw [hhead, hb]
    simp only [build, encode, headerA_header, fifoSelByte_of _ ha, operandWord_zero, operandWord_succ, highWord_join,
      lowWord_join]
  | fifoWrite =>
    have hb := hb.resolve_left nofun
    have ha : headerA h = 0#8 ∨ headerA h = 1#8 := by simpa [aLegal] using ha
    obtain ⟨w1, w2, w3, rfl⟩ := List.length_eq_three.1 hw
    rw [hhead, hb]
    simp only [build, encode, headerA_header, fifoSelByte_of _ ha, operandWord_zero, operandWord_succ, highWord_join,
      lowWord_join]
  | clkHeartbeat =>
    have hb := hb.resolve_left nofun
    have ha : headerA h = 0#8 := by simpa [aLegal] using ha
    obtain ⟨w, rfl⟩ := List.length_eq_one_iff.1 hw
    obtain rfl := List.eq_nil_of_length_eq_zero hl
    rw [hhead, hb, ha]
    rfl
  | clkAdvance | clkTimeout | clkStatus =>
    have hb := hb.resolve_left nofun
    have ha : headerA h = 0#8 := by simpa [aLegal] using ha
    obtain rfl := List.eq_nil_of_length_eq_zero hw
    obtain rfl := List.eq_nil_of_length_eq_zero hl
    rw [hhead, hb, ha]
    rfl
  | encCmd | sessSendCmd =>
    have hb := hb.resolve_left nofun
    have ha : (headerA h).toNat ≤ 8 := by simpa [aLegal] using ha
    obtain ⟨w1, w2, rfl⟩ := List.length_eq_two.1 hw
    obtain rfl := List.eq_nil_of_length_eq_zero hl
    rw [hhead, hb]
    simp only [build, encode, headerA_header, id_commandOfId _ ha, operandWord_zero, operandWord_succ]
  | encDl | sessSendBurst =>
    obtain ⟨w, rfl⟩ := List.length_eq_one_iff.1 hw
    rw [hhead]
    simp only [build, encode, headerA_header, headerB_header, operandWord_zero, itemsOf_bytesOf items hi]
  | decUl | decClock | rxClock | rxCtrl | rxData =>
    have hb := hb.resolve_left nofun
    have ha : headerA h = 0#8 := by simpa [aLegal] using ha
    obtain ⟨w, rfl⟩ := List.length_eq_one_iff.1 hw
    rw [hhead, hb, ha]
    simp only [build, encode, lengthWord_bytesOf hl, operandWord_zero, itemsOf_bytesOf items hi]

/-- Settles O2: what a decoded request looks like (`decode_cases`) is what `encode_build` needs. -/
theorem decodedRequestIsWellFormedAndReencodes : Obligations.DecodedRequestIsWellFormedAndReencodes := by
  intro c r i h
  refine ⟨wellFormed_of_decode h, ?_⟩
  obtain ⟨hd, ws, o, hr, ho, hz, hb, ha, hw, -, hl, hi, rfl⟩ := decode_cases c r i h
  exact (encode_build ho hz hb ha hw hl hi).trans hr.symm

/-! ## The rows of the opcode table -/

/-- The bits of `A` that a row keeps. -/
def rowMaskA (o : Opcode) : Byte :=
  match o.format with
  | .n | .fs => if aLegal o 1#8 then 0xFE#8 else 0xFF#8
  | .v | .dg => 0xFF#8
  | .cmd | .burst => 0#8

/-- The bits of `B` that a row keeps. -/
def rowMaskB (o : Opcode) : Byte := if o.format = .burst then 0#8 else 0xFF#8

theorem rowMask_eq_header (o : Opcode) : rowMask o = header 0xFF#8 (rowMaskA o) (rowMaskB o) 0xFF#8 := by
  cases o <;> decide

theorem rowMatch_eq_header (o : Opcode) : rowMatch o = header o.byte 0#8 0#8 0#8 := by
  cases o <;> decide

theorem and_ones (x : Byte) : x &&& 0xFF#8 = x := BitVec.and_allOnes

/-- What a row keeps of `A` is zero exactly when `A` is legal, where the row does not leave `A` free. -/
theorem and_rowMaskA_eq_zero_iff (o : Opcode) (a : Byte) :
    a &&& rowMaskA o = 0#8 ↔ (o.format = .cmd ∨ aLegal o a = true) := by
  have hselector : ∀ a : Byte, a &&& 0xFE#8 = 0#8 ↔ (a == 0#8 || a == 1#8) = true := by decide
  cases o with
  | fifoOpen | fifoClose | fifoWrite | fifoRead | fifoStatus => exact (hselector a).trans (or_iff_right nofun).symm
  | clkHeartbeat | clkAdvance | clkTimeout | clkStatus | decUl | decClock | rxClock | rxCtrl | rxData =>
    have hzero : a &&& 0xFF#8 = 0#8 ↔ (a == 0#8) = true := by rw [and_ones, beq_iff_eq]
    exact hzero.trans (or_iff_right nofun).symm
  | encCmd | sessSendCmd => exact iff_of_true BitVec.and_zero (.inl rfl)
  | encDl | sessSendBurst => exact iff_of_true BitVec.and_zero (.inr rfl)

theorem and_rowMaskB_eq_zero_iff (o : Opcode) (b : Byte) : b &&& rowMaskB o = 0#8 ↔ (o.format = .burst ∨ b = 0#8) := by
  unfold rowMaskB
  split_ifs with hburst
  · exact iff_of_true BitVec.and_zero (.inl hburst)
  · rw [and_ones]
    exact (or_iff_right hburst).symm

/-- Settles O3: mask, match and header are compared field by field. -/
theorem tableRowIsTheDecodersHeader : Obligations.TableRowIsTheDecodersHeader := by
  intro h o
  have hfields : h &&& rowMask o =
      header (headerOp h) (headerA h &&& rowMaskA o) (headerB h &&& rowMaskB o) (headerZ h) := by
    conv_lhs => rw [← header_fields h, rowMask_eq_header, header_and, and_ones, and_ones]
  rw [hfields, rowMatch_eq_header, header_inj, and_rowMaskA_eq_zero_iff, and_rowMaskB_eq_zero_iff, opcodeOfByte_eq_some_iff]
  tauto

/-! ## The command ids -/

/-- A header whose selector is not legal is refused for it, when its other reserved fields are zero (R113). -/
theorem decode_illegal_a {c : Config} {o : Opcode} {a : Byte} (ha : aLegal o a = false) (ws : List Word) (items : List Nat) :
    decode c ⟨header o.byte a 0#8 0#8 :: ws, items⟩ = .error .aLegal := by
  simp [decode, ha]

theorem aLegal_of_gt {o : Opcode} (ho : o.format = .cmd) {id : Byte} (h : 8 < id.toNat) : aLegal o id = false := by
  cases o <;> cases ho <;> exact decide_eq_false (Nat.not_le_of_gt h)

/-- Settles O5: each word of the list is the header of its command, and the requests are those of `encode`. -/
theorem commandIdsAreThoseOfTheTable : Obligations.CommandIdsAreThoseOfTheTable := by
  intro c a b
  constructor
  · intro p hp
    have hwords : p.1 = header (Opcode.byte .encCmd) p.2.id 0#8 0#8 ∧
        p.1 + 0x0D000000#32 = header (Opcode.byte .sessSendCmd) p.2.id 0#8 0#8 := by
      revert p
      decide
    rw [hwords.2, hwords.1]
    exact ⟨decode_encode (i := .encCmd p.2 a b) rfl, decode_encode (i := .sessSendCmd p.2 a b) rfl⟩
  · intro id hid
    rw [append_zero_eq_header, append_zero_eq_header]
    exact ⟨decode_illegal_a (o := .encCmd) (aLegal_of_gt rfl hid) _ _,
      decode_illegal_a (o := .sessSendCmd) (aLegal_of_gt rfl hid) _ _⟩

end Sys2Proof
end

section
/-! PROOF. The step and the responses (30_encoding.md R106 to R114; 60_exceptions.md R250 to R259): a request is refused or
performed; either way it is answered once. Which statuses an operation can answer and which outputs it can emit before that is
said once for all operations (`exec_listed`). -/

namespace Sys2Proof.Machine

open Sys2Proof

/-! ## One step -/

section
variable {s : State} {r : Request} {rest : List Request}

theorem presented_of_req (hreq : s.req = r :: rest) : s.presented = some r := by rw [State.presented, hreq]; rfl

theorem accept_of_req (hreq : s.req = r :: rest) : s.accept = { s with req := rest } := by rw [State.accept, hreq]; rfl

/-- A request that decodes is performed after it is taken from the port. -/
theorem step_of_decode (hreq : s.req = r :: rest) {i : Instr} (hdec : decode s.cfg r = .ok i) :
    step s = exec i { s with req := rest } := by
  simp only [step, presented_of_req hreq, hdec, accept_of_req hreq]

/-- A request that fails a check is taken from the port and answered `ILLEGAL_OP` (30_encoding.md R113, R114). -/
theorem step_of_reject (hreq : s.req = r :: rest) {e : Reject} (hdec : decode s.cfg r = .error e) :
    step s = .next ({ s with req := rest }.after [failRsp .illegalOp]) := by
  simp only [step, presented_of_req hreq, hdec, accept_of_req hreq]
  rfl

/-- A step that takes a request fails, with at most one diagnostic before its response, or succeeds, with no response before its
own: a refusal fails, and an operation ends in one of the two ways (`exec_answers`). -/
theorem step_cases (hreq : s.req = r :: rest) :
    (∃ (st : Status) (ds : List Output), st ≠ .ok ∧ ds.length ≤ 1 ∧ (∀ o ∈ ds, isDiag o = true) ∧
      step s = .next ({ s with req := rest }.after (ds ++ [failRsp st]))) ∨
    (∃ (t : State) (evs : List Output) (resp : Response), step s = .next t ∧ t.req = rest ∧
      t.out = s.out ++ evs ++ [.rsp resp] ∧ (∀ o ∈ evs, isRsp o = false) ∧ resp.status = .ok) := by
  cases hdec : decode s.cfg r with
  | error e => exact .inl ⟨.illegalOp, [], by decide, Nat.zero_le _, nofun, step_of_reject hreq hdec⟩
  | ok i =>
    rw [step_of_decode hreq hdec]
    rcases exec_answers i { s with req := rest } with hfail | ⟨t, evs, resp, hok, -, hrest, hout, hevs, hst, -⟩
    · exact .inl hfail
    · exact .inr ⟨t, evs, resp, hok, hrest, hout.trans (List.append_assoc ..).symm, hevs, hst⟩

end

/-- Settles O7. -/
theorem stepPerformsTheDecodedRequest : Obligations.StepPerformsTheDecodedRequest :=
  fun _ _ _ _ hreq hdec => step_of_decode hreq hdec

/-- Settles O8: with nothing on the port no request is presented. -/
theorem blockWaitsForARequest : Obligations.BlockWaitsForARequest := by
  intro s hreq
  have hnone : s.presented = none := by rw [State.presented, hreq]; rfl
  rw [step, hnone]

/-! ## Requests that fail a check, and requests that pass all -/

/-- What `a_legal` asks of the opcodes of each format (30_encoding.md R113). -/
theorem aLegal_iff (o : Opcode) (a : Byte) :
    aLegal o a = true ↔
      (o ∈ [Opcode.fifoOpen, .fifoClose, .fifoStatus, .fifoWrite, .fifoRead] → a = 0#8 ∨ a = 1#8) ∧
      (o ∈ [Opcode.clkAdvance, .clkTimeout, .clkStatus, .clkHeartbeat] → a = 0#8) ∧
      (o.format = .dg → a = 0#8) ∧ (o.format = .cmd → a.toNat ≤ 8) := by
  cases o <;> simp [aLegal, Opcode.format]

@[simp] theorem opcode_build (o : Opcode) (h : Word) (ws : List Word) (items : List Nat) :
    (build o h ws items).opcode = o := by cases o <;> rfl

/-- Settles O6. A request that decoded would pass every check (`decode_cases`), against the check it fails; conversely
`decode_of_checks`. -/
theorem malformedRequestIsAnsweredIllegalOp : Obligations.MalformedRequestIsAnsweredIllegalOp := by
  intro s h ws items rest hreq
  constructor
  · intro hbad
    cases hdec : decode s.cfg ⟨h :: ws, items⟩ with
    | error e => exact step_of_reject hreq hdec
    | ok i =>
      obtain ⟨h', ws', o, hr, ho, hz, hb, ha, -, hd, hl, -, -⟩ := decode_cases _ _ _ hdec
      cases hr
      have hbyte := (opcodeOfByte_eq_some_iff _ _).1 ho
      obtain ⟨hfifo, hclk, hdg, hcmd⟩ := (aLegal_iff o _).1 ha
      rcases hbad with hnone | hz' | ⟨o', ho', hcheck⟩
      · exact absurd hbyte.symm (hnone o)
      · exact absurd hz hz'
      obtain rfl := byte_injective o' o (ho'.trans hbyte)
      rcases hcheck with ⟨hburst, hb'⟩ | ⟨hmem, h0, h1⟩ | ⟨hmem, h0⟩ | ⟨hform, h0⟩ | ⟨hform, hid⟩ | hlen | ⟨hform, hlen⟩
      · exact absurd (hb.resolve_left hburst) hb'
      · exact absurd (hfifo hmem) (not_or.2 ⟨h0, h1⟩)
      · exact absurd (hclk hmem) h0
      · exact absurd (hdg hform) h0
      · exact absurd (hcmd hform) (Nat.not_le.2 hid)
      · exact absurd hl hlen
      · exact absurd (hd hform) (Nat.not_le.2 hlen)
  · intro o ho hz hb hfifo hclk hdg hcmd hl hd hw hi
    have ha := (aLegal_iff o (headerA h)).2 ⟨hfifo, hclk, hdg, hcmd⟩
    exact ⟨build o h ws items, opcode_build o h ws items, decode_of_checks s.cfg o h ws items ho hz hb ha hw hd hl hi⟩

/-! ## The response of a request -/

/-- What stands before and in the last response is determined by the outputs. -/
theorem evs_resp_of_out_eq {out evs evs' : List Output} {resp resp' : Response}
    (h : out ++ evs ++ [.rsp resp] = out ++ evs' ++ [.rsp resp']) : evs = evs' ∧ resp = resp' := by
  obtain ⟨hevs, hrsp⟩ := List.append_inj' h rfl
  cases hrsp
  exact ⟨List.append_cancel_left hevs, rfl⟩

theorem isRsp_of_isDiag {o : Output} (h : isDiag o = true) : isRsp o = false := by
  cases o with
  | diag d => rfl
  | trx ch d | up e | rsp resp => cases h

/-- Settles O9, in both cases of `step_cases`. -/
theorem everyRequestGetsExactlyOneResponseLast : Obligations.EveryRequestGetsExactlyOneResponseLast := by
  intro s r rest hreq
  rcases step_cases hreq with ⟨st, ds, -, -, hds, hstep⟩ | ⟨t, evs, resp, hstep, hrest, hout, hevs, -⟩
  · exact ⟨_, ds, _, hstep, rfl, (List.append_assoc ..).symm, fun o ho => isRsp_of_isDiag (hds o ho)⟩
  · exact ⟨t, evs, resp, hstep, hrest, hout, hevs⟩

/-- Settles O10: a response that is not OK is the first case of `step_cases`. -/
theorem failedOperationChangesNothing : Obligations.FailedOperationChangesNothing := by
  intro s t r rest evs resp hreq hstep hout hst
  rcases step_cases hreq with ⟨st, ds, -, hlen, hds, hfail⟩ | ⟨u, evs', resp', hok, -, hout', -, hst'⟩
  · cases hstep.symm.trans hfail
    obtain ⟨rfl, rfl⟩ := evs_resp_of_out_eq (hout.symm.trans (List.append_assoc ..).symm)
    exact ⟨rfl, hlen, hds, rfl, rfl, rfl⟩
  · cases hstep.symm.trans hok
    obtain ⟨-, rfl⟩ := evs_resp_of_out_eq (hout.symm.trans hout')
    exact absurd hst' hst

/-- Settles O12, in both cases of `exec_answers`. -/
theorem onlyFifoWriteSetsFlags : Obligations.OnlyFifoWriteSetsFlags := by
  intro i s t evs resp hexec hout
  rcases exec_answers i s with ⟨st, ds, -, -, -, hfail⟩ | ⟨u, evs', resp', hok, -, -, hout', -, hst, hlt, hflags⟩
  · cases hexec.symm.trans hfail
    obtain ⟨-, rfl⟩ := evs_resp_of_out_eq (hout.symm.trans (List.append_assoc ..).symm)
    exact ⟨(by decide : (0#8 : Byte).toNat < 8), fun _ => rfl⟩
  · cases hexec.symm.trans hok
    obtain ⟨-, rfl⟩ := evs_resp_of_out_eq (hout.symm.trans (hout'.trans (List.append_assoc ..).symm))
    exact ⟨hlt, fun h => hflags (h.resolve_right (not_not_intro hst))⟩

/-! ## What each operation may answer and emit -/

/-- The statuses besides OK of 60_exceptions.md R253, R255. -/
def failStatuses : Opcode → List Status
  | .fifoWrite => [.closed, .invalidArg, .stale]
  | .fifoRead => [.closed, .invalidArg, .past]
  | .encDl => [.invalidArg]
  | .sessSendBurst => [.invalidArg, .refused]
  | .sessSendCmd => [.refused]
  | .decUl => [.dropLength, .dropTimeslot]
  | .rxData => [.dropLength, .dropTimeslot]
  | .decClock => [.dropMalformed]
  | .rxClock => [.dropMalformed]
  | .fifoOpen | .fifoClose | .fifoStatus | .clkHeartbeat | .clkAdvance | .clkTimeout | .clkStatus | .encCmd | .rxCtrl => []

/-- Where an output besides the response may come from (10_state.md R46; 60_exceptions.md R259). -/
def MayEmit (p : Opcode) : Output → Prop
  | .rsp _ => True
  | .trx .control _ => p ∈ [Opcode.clkHeartbeat, .rxClock, .clkTimeout, .sessSendCmd]
  | .trx .data _ => p = .sessSendBurst
  | .up (.frameInd _) => p ∈ [Opcode.clkHeartbeat, .rxClock]
  | .up (.ulBurst _) => p = .rxData
  | .diag .overwrite => p = .fifoWrite
  | .diag .overflow => p = .fifoWrite
  | .diag .refusedCmd => p = .sessSendCmd
  | .diag .refusedBurst => p = .sessSendBurst
  | .diag .dropLength => p = .rxData
  | .diag .dropTimeslot => p = .rxData
  | .diag .dropMalformed => p = .rxClock
  | .diag .heartbeatLost => p = .clkTimeout
  | .diag .ctrlResponse => p = .rxCtrl

/-- The result of an operation with opcode `p` in a state whose outputs are `out`: outputs it may emit, then a response with OK or
a status it may fail with. -/
def Listed (p : Opcode) (out : List Output) (r : Result) : Prop :=
  ∃ (t : State) (evs : List Output) (resp : Response), r = .next t ∧ t.out = out ++ evs ++ [.rsp resp] ∧
    (∀ o ∈ evs, MayEmit p o) ∧ (resp.status ≠ .ok → resp.status ∈ failStatuses p)

section
variable {p : Opcode} {out : List Output} {u : State}

/-- An operation that emits `evs` and then succeeds. -/
theorem listed_respond (evs : List Output) {fl : Byte} {v : Int} {ex : List Word} {pl : List Nat}
    (hu : u.out = out ++ evs) (hevs : ∀ o ∈ evs, MayEmit p o) : Listed p out (.next (u.respond .ok fl v ex pl)) :=
  ⟨_, evs, _, rfl, congrArg (· ++ _) hu, hevs, fun h => absurd rfl h⟩

/-- An operation that emits `evs` and then fails. -/
theorem listed_raise (evs : List Output) {st : Status} (hst : st ∈ failStatuses p) (hu : u.out = out ++ evs)
    (hevs : ∀ o ∈ evs, MayEmit p o) : Listed p out (.next (u.raise st)) :=
  ⟨_, evs, _, rfl, congrArg (· ++ _) hu, hevs, fun _ => hst⟩

/-- An operation whose only output is an OK response. -/
theorem listed_respond_only {fl : Byte} {v : Int} {ex : List Word} {pl : List Nat} (hu : u.out = out) :
    Listed p out (.next (u.respond .ok fl v ex pl)) := listed_respond [] (hu.trans (List.append_nil _).symm) nofun

/-- An operation whose only output is the response of its failure. -/
theorem listed_raise_only {st : Status} (hst : st ∈ failStatuses p) : Listed p u.out (.next (u.raise st)) :=
  listed_raise [] hst (List.append_nil _).symm nofun

/-- An operation that fails with a diagnostic. -/
theorem listed_diag_raise {d : DiagCode} {st : Status} (hst : st ∈ failStatuses p) (hd : MayEmit p (.diag d)) :
    Listed p u.out (.next ((u.emitDiag d).raise st)) :=
  listed_raise [.diag d] hst rfl fun _ ho => List.mem_singleton.1 ho ▸ hd

/-- An operation that emits one output and then succeeds. -/
theorem listed_emit_respond {o : Output} {fl : Byte} {v : Int} {ex : List Word} {pl : List Nat} (ho : MayEmit p o) :
    Listed p u.out (.next ((u.emit [o]).respond .ok fl v ex pl)) :=
  listed_respond [o] rfl fun _ h => List.mem_singleton.1 h ▸ ho

end

/-- A heartbeat emits the setup commands or one `FRAME_IND` (41_frameclock.md R172). -/
theorem listed_heartbeat {p : Opcode} (hp : p ∈ [Opcode.clkHeartbeat, .rxClock]) (v : Word) (s : State) :
    Listed p s.out (.next (heartbeat v s)) := by
  have hevs : ∀ o ∈ heartbeatOutputs v s, MayEmit p o := by
    intro o ho
    unfold heartbeatOutputs at ho
    split at ho
    · rw [List.mem_singleton.1 ho]
      exact hp
    · obtain ⟨x, -, rfl⟩ := List.mem_map.1 ho
      exact List.mem_append_left [Opcode.clkTimeout, .sessSendCmd] hp
  rw [heartbeat_eq]
  exact ⟨_, _, _, rfl, rfl, hevs, fun h => absurd rfl h⟩

theorem listed_fifoWrite (f : FifoSel) (count : Word) (ts : Timestamp) (data : List Sample) (s : State) :
    Listed .fifoWrite s.out (execFifoWrite f count ts data s) := by
  unfold execFifoWrite
  extract_lets F C n t
  split_ifs
  · exact listed_raise_only (by decide)
  · exact listed_raise_only (by decide)
  · exact listed_raise_only (by decide)
  · exact listed_raise_only (by decide)
  · refine listed_respond ((if flagOvw F n t then [.diag .overwrite] else []) ++
      (if flagOvf F C n t then [.diag .overflow] else [])) ?_ ?_
    · simp only [setFifo_out, emitDiagIf_out, List.append_assoc]
    · intro o ho
      rcases List.mem_append.1 ho with ho | ho
      · rw [List.mem_singleton.1 (List.mem_ite_nil_right.1 ho).2]
        rfl
      · rw [List.mem_singleton.1 (List.mem_ite_nil_right.1 ho).2]
        rfl

theorem listed_fifoRead (f : FifoSel) (maxCount : Word) (ts : Timestamp) (s : State) :
    Listed .fifoRead s.out (execFifoRead f maxCount ts s) := by
  unfold execFifoRead
  extract_lets F C m t
  split_ifs
  · exact listed_raise_only (by decide)
  · exact listed_raise_only (by decide)
  · exact listed_raise_only (by decide)
  · exact listed_respond_only rfl
  · exact listed_respond_only (setFifo_out _ _ _)

/-- What every operation emits and answers, in every state. -/
theorem exec_listed (i : Instr) (s : State) : Listed i.opcode s.out (exec i s) := by
  cases i with
  | fifoOpen f | fifoClose f => exact listed_respond_only (setFifo_out _ _ _)
  | fifoWrite f n ts data => exact listed_fifoWrite f n ts data s
  | fifoRead f m ts => exact listed_fifoRead f m ts s
  | fifoStatus f | clkStatus => exact listed_respond_only rfl
  | clkHeartbeat v => exact listed_heartbeat (p := .clkHeartbeat) (by decide) v s
  | clkAdvance => exact listed_respond_only rfl
  | clkTimeout =>
    refine listed_respond [.trx .control (encCmdBytes .powerOff 0#32 0#32), .diag .heartbeatLost]
      (List.append_assoc ..) fun o ho => ?_
    rcases List.mem_pair.1 ho with rfl | rfl <;> simp [MayEmit, Instr.opcode]
  | encDl ts g fn bits =>
    simp only [exec, execEncDl]
    split_ifs
    · exact listed_raise_only (p := .encDl) (by decide)
    · exact listed_respond_only rfl
  | decUl d =>
    cases h : decodeUplink d with
    | error st =>
      simp only [exec, execDecUl, h]
      exact listed_raise_only (by simpa [failStatuses, Instr.opcode] using decodeUplink_error d st h)
    | ok u =>
      simp only [exec, execDecUl, h]
      exact listed_respond_only rfl
  | decClock d =>
    simp only [exec, execDecClock]
    split
    · exact listed_raise_only (p := .decClock) (by decide)
    · exact listed_respond_only rfl
  | encCmd k a b => exact listed_respond_only rfl
  | sessSendCmd k a b =>
    simp only [exec, execSessSendCmd]
    split_ifs
    · exact listed_diag_raise (p := .sessSendCmd) (by decide) rfl
    · exact listed_emit_respond (by simp [MayEmit, Instr.opcode])
  | sessSendBurst ts g fn bits =>
    simp only [exec, execSessSendBurst]
    split_ifs
    · exact listed_raise_only (p := .sessSendBurst) (by decide)
    · exact listed_diag_raise (p := .sessSendBurst) (by decide) rfl
    · exact listed_emit_respond rfl
  | rxClock d =>
    simp only [exec, execRxClock]
    split
    · exact listed_diag_raise (p := .rxClock) (by decide) rfl
    next v _ => exact listed_heartbeat (p := .rxClock) (by decide) v s
  | rxCtrl d => exact listed_emit_respond rfl
  | rxData d =>
    cases h : decodeUplink d with
    | error st =>
      simp only [exec, execRxData, h]
      rcases decodeUplink_error d st h with rfl | rfl
      · exact listed_diag_raise (p := .rxData) (by decide) rfl
      · exact listed_diag_raise (p := .rxData) (by decide) rfl
    | ok u =>
      simp only [exec, execRxData, h]
      exact listed_emit_respond rfl

/-- Settles O13 (`exec_listed`): the response is the last output, and its status is in the list. -/
theorem statusesOfEachOperation : Obligations.StatusesOfEachOperation := by
  intro i s t evs resp hexec hout hst
  obtain ⟨u, evs', resp', hu, hout', -, hlist⟩ := exec_listed i s
  cases hexec.symm.trans hu
  obtain ⟨-, rfl⟩ := evs_resp_of_out_eq (hout.symm.trans hout')
  exact hlist hst

/-- Settles O14 (`exec_listed`): an output is one of those before the response, or the response. -/
theorem outputsOfEachOperation : Obligations.OutputsOfEachOperation := by
  intro i s t evs hexec hout o ho
  obtain ⟨u, evs', resp, hu, hout', hemit, -⟩ := exec_listed i s
  cases hexec.symm.trans hu
  obtain rfl : evs = evs' ++ [.rsp resp] :=
    List.append_cancel_left (hout.symm.trans (hout'.trans (List.append_assoc ..)))
  have hmay : MayEmit i.opcode o := by
    rcases List.mem_append.1 ho with hbefore | hlast
    · exact hemit o hbefore
    · rw [List.mem_singleton.1 hlast]
      trivial
  exact hmay

/-- Settles O15: the first word is a header with status and flags, its low half zero. -/
theorem responseWordsAndCodes : Obligations.ResponseWordsAndCodes :=
  ⟨fun r => by rw [Response.words, append_zero_eq_header], rfl, rfl⟩

end Sys2Proof.Machine
end

section
/-! PROOF. FIFO.WRITE and FIFO.READ together (40_fifo.md R153 to R159): the slots a write leaves alone, what a read inside the window
returns and leaves, the read that follows a write, and the write that fills the FIFO. -/

namespace Sys2Proof.Machine

open Sys2Proof

@[simp] theorem fifo_raise (s : State) (st : Status) (f : FifoSel) : (s.raise st).fifo f = s.fifo f := by cases f <;> rfl

/-! ## The two outcomes of a write -/

/-- The checks of FIFO.WRITE (40_fifo.md R144). -/
structure WriteChecks (s : State) (f : FifoSel) (n t : Int) : Prop where
  isOpen : (s.fifo f).isOpen = true
  n_nonneg : 0 ≤ n
  n_le : n ≤ s.capacity f
  top : t + n ≤ maxTimestamp
  not_stale : writeO (s.fifo f) t ≤ t

section
variable {f : FifoSel} {count : Word} {ts : Timestamp} {data : List Sample} {s : State}

/-- A write passes all its checks, or fails with a status and leaves everything else alone. -/
theorem fifoWrite_cases (f : FifoSel) (count : Word) (ts : Timestamp) (data : List Sample) (s : State) :
    WriteChecks s f count.toInt ts.toInt ∨
    ∃ st, st ≠ .ok ∧ exec (.fifoWrite f count ts data) s = .next (s.after [failRsp st]) := by
  by_cases hopen : (s.fifo f).isOpen = false
  · exact .inr ⟨.closed, by decide, exec_fifoWrite_closed hopen⟩
  have hopen := Bool.of_not_eq_false hopen
  by_cases hcount : count.toInt < 0 ∨ (s.capacity f : Int) < count.toInt
  · exact .inr ⟨.invalidArg, by decide, exec_fifoWrite_badCount hopen hcount⟩
  obtain ⟨h0, hC⟩ := not_or.1 hcount
  rw [not_lt] at h0 hC
  by_cases htop : maxTimestamp < ts.toInt + count.toInt
  · exact .inr ⟨.invalidArg, by decide, exec_fifoWrite_badEnd hopen h0 hC htop⟩
  rw [not_lt] at htop
  by_cases hstale : ts.toInt < writeO (s.fifo f) ts.toInt
  · exact .inr ⟨.stale, by decide, exec_fifoWrite_stale hopen h0 hC htop hstale⟩
  · exact .inl ⟨hopen, h0, hC, htop, not_lt.1 hstale⟩

/-- The outputs of a FIFO.WRITE that passes its checks (40_fifo.md R148). -/
def writeOutputs (F : Fifo) (C : Nat) (count : Word) (t : Int) : List Output :=
  (if flagOvw F count.toInt t then [.diag .overwrite] else []) ++
    (if flagOvf F C count.toInt t then [.diag .overflow] else []) ++
    [.rsp ⟨.ok, writeFlags F C count.toInt t, count, [], []⟩]

theorem exec_fifoWrite_of_checks (h : WriteChecks s f count.toInt ts.toInt) (data : List Sample) :
    exec (.fifoWrite f count ts data) s = .next ((s.setFifo f ((s.fifo f).written (s.capacity f) count.toInt ts.toInt data)).after
      (writeOutputs (s.fifo f) (s.capacity f) count ts.toInt)) :=
  exec_fifoWrite_ok f count ts data s h.isOpen h.n_nonneg h.n_le h.top h.not_stale

theorem WriteChecks.writeOk (h : WriteChecks s f count.toInt ts.toInt) (hc : s.cfg.wf)
    (hF : Fifo.Inv s.cfg (s.capacity f) (s.fifo f)) : WriteOk (s.fifo f) (s.capacity f) count.toInt ts.toInt :=
  writeOk_of_checks (capacity_wf s f hc) hF h.n_nonneg h.n_le h.top ts rfl h.not_stale

/-- A write that responds OK has passed its checks. -/
theorem writeChecks_of_ok {t : State} {evs : List Output} {resp : Response}
    (hexec : exec (.fifoWrite f count ts data) s = .next t) (hout : t.out = s.out ++ evs ++ [.rsp resp])
    (hst : resp.status = .ok) : WriteChecks s f count.toInt ts.toInt := by
  refine (fifoWrite_cases f count ts data s).resolve_right ?_
  rintro ⟨st, hne, hfail⟩
  cases hexec.symm.trans hfail
  obtain ⟨-, hrsp⟩ := List.append_inj' hout rfl
  cases hrsp
  exact hne hst

end

/-! ## The slots a write leaves alone -/

/-- The slots that `Fifo.written` writes are those of its zero fill and of its data, inside the invariant or not. -/
theorem read_written_unnamed (F : Fifo) (C : Nat) {n t : Int} {data : List Sample} (hdata : (data.length : Int) = n) {a : Nat}
    (ha : ∀ x : Int, (writeFirstNew F C n t ≤ x ∧ x < writeE2 F n t) ∨ (t ≤ x ∧ x < t + n) → writeSlot F C n t x ≠ a) :
    Memory.read (F.written C n t data).store a = Memory.read F.store a := by
  refine (read_writeAll_other _ _ _ fun p hp => ?_).trans (read_writeAll_other _ _ _ fun p hp => ?_)
  · obtain ⟨i, hi, hslot, -⟩ := mem_dataCells hp
    rw [hslot]
    exact ha _ (.inr (by omega))
  · obtain ⟨x, hfirst, hx, rfl⟩ := mem_zeroCells hp
    exact ha x (.inl ⟨hfirst, hx⟩)

theorem fifo_after (s : State) (f : FifoSel) (os : List Output) : (s.after os).fifo f = s.fifo f := by cases f <;> rfl

/-- Settles O28: a write that fails writes no slot, one that passes writes those of `Fifo.written`. -/
theorem fifoWriteLeavesOtherSlots : Obligations.FifoWriteLeavesOtherSlots := by
  intro f count ts data s u a F C n t hdata hexec ha
  rcases fifoWrite_cases f count ts data s with hchecks | ⟨st, -, hfail⟩
  · cases hexec.symm.trans (exec_fifoWrite_of_checks hchecks data)
    rw [fifo_setFifo_after]
    exact read_written_unnamed F C hdata ha
  · cases hexec.symm.trans hfail
    rw [fifo_after]

/-! ## A read inside the window -/

/-- A read leaves every sample alone that stays live (40_fifo.md R156). -/
theorem sampleAt_consumed {F : Fifo} {C : Nat} {m t x : Int} (h : ReadOk F m t) (h1 : t + readCount F m t ≤ x)
    (h2 : x < F.endTime) : (F.consumed m t).sampleAt C x = F.sampleAt C x := by
  have hold : F.origin.toInt ≤ x := by have := h.after; omega
  unfold Fifo.sampleAt
  rw [consumed_origin h, consumed_endTime h, consumed_slot h, consumed_store, if_pos ⟨h1, h2⟩, if_pos ⟨hold, h2⟩]

theorem length_readSpan (c : Config) (dr : Nat) (F : Fifo) (C : Nat) (m t : Int) :
    (readSpan c dr F C m t).length = readCount F m t := by
  rw [readSpan, List.length_map, List.length_range]

/-- Settles O30: the next state is that of `exec_fifoRead_ok`, the samples are those held (`readSpan_get`). -/
theorem fifoReadConsumes : Obligations.FifoReadConsumes := by
  intro f maxCount ts s F C m t E r hc hF hopen h0 horigin hend
  obtain ⟨hlen, -, hfin, -, -, hlive, -⟩ := hF
  have hok : ReadOk F m t := ⟨hlen.trans (capacity_wf s f hc).2, hfin, h0, horigin, hend⟩
  have hr : r = readCount F m t := hok.count.symm
  refine ⟨F.consumed m t, s.draws + 1, readSpan s.cfg s.draws F C m t, ?_, ?_, ?_, hopen, ?_, ?_, consumed_endTime hok, rfl, rfl, ?_⟩
  · rw [hr]
    exact exec_fifoRead_ok f maxCount ts s hopen h0 horigin hend
  · rw [hr, length_readSpan]
  · intro i hi
    rw [hr] at hi
    exact readSpan_get s.cfg s.draws hok hlive i (Int.ofNat_lt.1 hi)
  · rw [hr]
    exact consumed_origin hok
  · rw [hr]
    exact consumed_length hok
  · intro x hx1 hx2
    rw [hr] at hx1
    exact sampleAt_consumed hok hx1 hx2

/-! ## A read after a write -/

/-- Reading back at once what was written at `t`, inside the window: the `n` samples of the data, whatever the draw. -/
theorem readSpan_written {F : Fifo} {C : Nat} {n t : Int} (h : WriteOk F C n t) {c : Config} {data : List Sample}
    (hdata : (data.length : Int) = n) (hr : ReadOk (F.written C n t data) n t) (hlive : (F.written C n t data).live C) (dr : Nat) :
    readSpan c dr (F.written C n t data) C n t = data := by
  obtain ⟨-, -, -, hE2, -⟩ := h.bounds
  have hcount : readCount (F.written C n t data) n t = data.length := by
    have := hr.count
    rw [written_endTime h] at this
    omega
  refine List.ext_getElem? fun i => ?_
  by_cases hi : i < data.length
  · rw [← readSpan_get c dr hr hlive i (hcount ▸ hi), sampleAt_written_data h hdata (by omega) (by omega)]
    congr 1
    omega
  · rw [List.getElem?_eq_none (by rw [length_readSpan, hcount]; omega), List.getElem?_eq_none (not_lt.1 hi)]

/-- Settles O31. Inside the window left by the write the read returns the data (`readSpan_written`); the timestamp is at its end
only when nothing was written, and nothing is read then. -/
theorem writeThenReadReturnsTheData : Obligations.WriteThenReadReturnsTheData := by
  intro f count ts data s u evs resp hs hwf hexec hout hst
  have hchecks := writeChecks_of_ok hexec hout hst
  have hF := inv_fifo hs f
  have hok := hchecks.writeOk hs.1 hF
  have ⟨hopen, h0, _, _, _⟩ := hchecks
  obtain ⟨hlen, hfit⟩ := wellFormed_fifoWrite hwf
  have hdata : (data.length : Int) = count.toInt := by rw [hlen]; exact Int.toNat_of_nonneg h0
  obtain ⟨hlenG, -, hfinG, -, -, hliveG, -⟩ := written_inv hok data hdata hF hopen hfit
  obtain ⟨-, -, hO2, hE2, -⟩ := hok.bounds
  cases hexec.symm.trans (exec_fifoWrite_of_checks hchecks data)
  have hG := fifo_setFifo_after s f ((s.fifo f).written (s.capacity f) count.toInt ts.toInt data)
    (writeOutputs (s.fifo f) (s.capacity f) count ts.toInt)
  have horigin := written_origin hok data
  have hend := written_endTime hok data
  generalize hu : (s.setFifo f _).after _ = u at hG ⊢
  have hC : u.capacity f = s.capacity f := by rw [← hu]; exact capacity_setFifo s f f _
  by_cases hinside : ts.toInt < writeE2 (s.fifo f) count.toInt ts.toInt
  · have hr : ReadOk (u.fifo f) count.toInt ts.toInt := by
      rw [hG]
      exact ⟨hlenG.trans hok.cap, hfinG, h0, by omega, by omega⟩
    refine ⟨_, exec_fifoRead_ok f count ts u (hG ▸ hopen) h0 hr.after hr.before, ?_⟩
    have hcount : (readCount (u.fifo f) count.toInt ts.toInt : Int) = count.toInt := by
      rw [hr.count, hG, hend]
      omega
    rw [hG] at hr
    rw [hcount, hC, hG, readSpan_written hok hdata hr hliveG]
  · have hnone : data = [] := List.eq_nil_of_length_eq_zero (by omega)
    have hzero : count.toInt = 0 := by omega
    refine ⟨_, exec_fifoRead_ahead (hG ▸ hopen) h0 (by rw [hG]; omega) (by rw [hG]; omega), ?_⟩
    rw [hnone, hzero]

/-! ## A write that fills the FIFO -/

/-- A write at or after the end that exceeds the room evicts until the window is as long as the capacity (40_fifo.md R151). -/
theorem written_full {F : Fifo} {C : Nat} {n t : Int} (h : WriteOk F C n t) (data : List Sample) (hne : F.length.toNat ≠ 0)
    (hafter : F.endTime ≤ t) (hroom : (C : Int) - F.length.toNat < (t - F.endTime) + n) :
    (F.written C n t data).length.toNat = C ∧ (F.written C n t data).endTime = t + n := by
  have hn := h.n_nonneg
  have hE2 : writeE2 F n t = t + n := by
    rw [writeE2, writeE_of_nonempty F t hne]
    exact max_eq_right (by omega)
  have hO2 : writeO2 F C n t = t + n - C := by
    have hend : F.endTime = F.origin.toInt + F.length.toNat := rfl
    rw [writeO2, hE2, writeO, if_neg hne]
    exact max_eq_right (by omega)
  have hlen := written_length h data
  rw [writeL2, hE2, hO2] at hlen
  exact ⟨by omega, (written_endTime h data).trans hE2⟩

/-- Settles O32: the window is `written_full`, its samples are the data (`sampleAt_written_data`). -/
theorem overflowFillsTheCapacity : Obligations.OverflowFillsTheCapacity := by
  intro f count ts data s F C n t hc hF hopen hne h0 hC htop hafter hroom hdata
  have hlen : F.length.toNat ≠ 0 := fun h => hne (BitVec.eq_of_toNat_eq h)
  have hfresh : writeO F t ≤ t := by
    rw [writeO, if_neg hlen]
    unfold Fifo.endTime at hafter
    omega
  have hchecks : WriteChecks s f n t := ⟨hopen, h0, hC, htop, hfresh⟩
  have hok := hchecks.writeOk hc hF
  obtain ⟨hfull, hend⟩ := written_full hok data hlen hafter hroom
  refine ⟨_, exec_fifoWrite_of_checks hchecks data, ?_⟩
  rw [fifo_setFifo_after]
  refine ⟨hfull, hend, fun i hi => ?_⟩
  rw [sampleAt_written_data hok hdata (by omega) (by omega)]
  congr 1
  omega

end Sys2Proof.Machine
end

section
/-! PROOF. What an operation reads and writes outside the FIFOs and the request port. The frame-clock, codec and session operations
are functions of the configuration and the frame-clock unit, and move that unit in four ways (`exec_outside`); the codec
operations do not even read it; and no operation reads the output history. -/

namespace Sys2Proof.Machine

open Sys2Proof

/-! ## The frame-clock unit and its moves -/

/-- The registers of the frame-clock unit (10_state.md R37). -/
structure Clock where
  available : Bool
  setupComplete : Bool
  trxFrame : Word
  currentFrame : Word

/-- What a state holds there. -/
def State.clock (s : State) : Clock := ⟨s.available, s.setupComplete, s.trxFrame, s.currentFrame⟩

/-- The same state with `k` in its place. -/
def State.setClock (s : State) (k : Clock) : State :=
  { s with
    available := k.available, setupComplete := k.setupComplete, trxFrame := k.trxFrame, currentFrame := k.currentFrame }

@[simp] theorem setClock_clock (s : State) : s.setClock s.clock = s := rfl

/-- The unit after the clock indication `v` (41_frameclock.md R172, R174). -/
def Clock.beat (k : Clock) (c : Config) (v : Word) : Clock :=
  ⟨k.available || !k.setupComplete, true, v, BitVec.ofNat 32 (heartbeatFrame c v.toNat)⟩

/-- How an instruction moves the unit, under configuration `c` and from `k` (41_frameclock.md R172 to R179). -/
inductive ClockMove (c : Config) (k : Clock) : Instr → Clock → Prop where
  | stays (i : Instr) : ClockMove c k i k
  | beats {i : Instr} {v : Word} (h : carriesClock c i v) : ClockMove c k i (k.beat c v)
  | advances : ClockMove c k .clkAdvance { k with currentFrame := BitVec.ofNat 32 (advanceFrame c k.currentFrame.toNat) }
  | expires : ClockMove c k .clkTimeout { k with available := false, setupComplete := false }

/-- From every state with configuration `c` and unit `k` the instruction makes the same move and appends the same outputs, and it
does nothing else. -/
def ReadsClockOnly (i : Instr) (c : Config) (k : Clock) : Prop :=
  ∃ (k' : Clock) (os : List Output), ClockMove c k i k' ∧
    ∀ s : State, s.cfg = c → s.clock = k → exec i s = .next ((s.setClock k').after os)

/-- An instruction that appends outputs and does nothing else. -/
theorem readsClockOnly_of_after {i : Instr} {c : Config} {k : Clock} (os : List Output)
    (h : ∀ s : State, s.cfg = c → s.clock = k → exec i s = .next (s.after os)) : ReadsClockOnly i c k :=
  ⟨k, os, .stays i, fun s hc hk => by
    subst hk
    exact h s hc rfl⟩

/-- A heartbeat issues the setup commands or one `FRAME_IND`, as the unit says (41_frameclock.md R172). -/
theorem exec_clkHeartbeat_clock (v : Word) (c : Config) (k : Clock) :
    ∃ os, ∀ s : State, s.cfg = c → s.clock = k → exec (.clkHeartbeat v) s = .next ((s.setClock (k.beat c v)).after os) := by
  obtain ⟨av, su, tf, cf⟩ := k
  cases su with
  | false =>
    refine ⟨setupOutputs c ++ [okRsp (heartbeatFrame c v.toNat) [] []], ?_⟩
    rintro s rfl hk
    have hsetup : s.setupComplete = false := congrArg Clock.setupComplete hk
    rw [exec_clkHeartbeat, heartbeatOutputs_setup v hsetup, ← hk]
    rfl
  | true =>
    refine ⟨[.up (.frameInd (BitVec.ofNat 32 (heartbeatFrame c v.toNat)))] ++ [okRsp (heartbeatFrame c v.toNat) [] []], ?_⟩
    rintro s rfl hk
    have hsetup : s.setupComplete = true := congrArg Clock.setupComplete hk
    rw [exec_clkHeartbeat, heartbeatOutputs_frameInd v hsetup, ← hk]
    rfl

/-- The response of a codec operation, which reads the configuration alone (10_state.md R41; 42_codec.md R190). -/
theorem exec_codec {i : Instr} (hi : isCodec i = true) (c : Config) :
    ∃ resp : Response, ∀ s : State, s.cfg = c → exec i s = .next (s.after [.rsp resp]) := by
  cases i <;> cases hi
  case encDl ts g fn bits =>
    rcases Nat.lt_or_ge 7 ts.toNat with hbad | hts
    · exact ⟨_, fun s _ => exec_encDl_badTimeslot hbad g fn bits s⟩
    · exact ⟨_, fun s _ => exec_encDl_ok hts g fn bits s⟩
  case decUl d =>
    cases h : decodeUplink d with
    | error st => exact ⟨_, fun s _ => exec_decUl_error h s⟩
    | ok u => exact ⟨_, fun s _ => exec_decUl_ok h s⟩
  case decClock d =>
    cases h : decClockValue c d with
    | none => exact ⟨_, fun s hc => exec_decClock_malformed (hc ▸ h)⟩
    | some v => exact ⟨_, fun s hc => exec_decClock_ok (hc ▸ h)⟩
  case encCmd k a b => exact ⟨_, fun s _ => exec_encCmd k a b s⟩

theorem readsClockOnly_of_codec {i : Instr} (hi : isCodec i = true) {c : Config} {k : Clock} : ReadsClockOnly i c k := by
  obtain ⟨resp, hresp⟩ := exec_codec hi c
  exact readsClockOnly_of_after [.rsp resp] fun s hc _ => hresp s hc

/-- Every operation outside the FIFO family. -/
theorem exec_outside {i : Instr} (hi : instrFifo i = none) (c : Config) (k : Clock) : ReadsClockOnly i c k := by
  cases i with
  | fifoOpen | fifoClose | fifoWrite | fifoRead | fifoStatus => cases hi
  | encDl | decUl | decClock | encCmd =>
    exact readsClockOnly_of_codec rfl
  | clkHeartbeat v =>
    obtain ⟨os, hos⟩ := exec_clkHeartbeat_clock v c k
    exact ⟨_, os, .beats (.inl rfl), hos⟩
  | clkAdvance =>
    refine ⟨_, [okRsp (advanceFrame c k.currentFrame.toNat) [] []], .advances, ?_⟩
    rintro s rfl rfl
    exact exec_clkAdvance s
  | clkTimeout =>
    refine ⟨_, [.trx .control (encCmdBytes .powerOff 0#32 0#32), .diag .heartbeatLost, okRsp 0 [] []], .expires, ?_⟩
    rintro s rfl rfl
    exact exec_clkTimeout s
  | clkStatus =>
    refine readsClockOnly_of_after [okRsp 0 [
      if k.available then (if k.setupComplete then 2#32 else 1#32) else (if k.setupComplete then 3#32 else 0#32),
      if k.available then 1#32 else 0#32, if k.setupComplete then 1#32 else 0#32, k.trxFrame, k.currentFrame] []] ?_
    rintro s rfl rfl
    obtain ⟨-, hstatus, -⟩ := clockStatusReportsTheSession s
    exact hstatus
  | sessSendCmd cmd a b =>
    by_cases hgate : k.available = true ∨ cmd = .powerOff
    · exact readsClockOnly_of_after _ fun s _ hk => exec_sessSendCmd_sent (by subst hk; exact hgate) a b
    · obtain ⟨hdown, hother⟩ := not_or.1 hgate
      exact readsClockOnly_of_after _ fun s _ hk =>
        exec_sessSendCmd_refused (by subst hk; exact Bool.of_not_eq_true hdown) hother a b
  | sessSendBurst ts g fn bits =>
    rcases Nat.lt_or_ge 7 ts.toNat with hbad | hts
    · exact readsClockOnly_of_after _ fun s _ _ => exec_sessSendBurst_badTimeslot g fn bits hbad
    cases hav : k.available with
    | false =>
      exact readsClockOnly_of_after _ fun s _ hk => exec_sessSendBurst_refused g fn bits hts (by subst hk; exact hav)
    | true =>
      exact readsClockOnly_of_after _ fun s _ hk => exec_sessSendBurst_sent g fn bits hts (by subst hk; exact hav)
  | rxClock d =>
    cases h : decClockValue c d with
    | none => exact readsClockOnly_of_after _ fun s hc _ => exec_rxClock_malformed (hc ▸ h)
    | some v =>
      obtain ⟨os, hos⟩ := exec_clkHeartbeat_clock v c k
      exact ⟨_, os, .beats (.inr ⟨d, rfl, h⟩), fun s hc hk => (exec_rxClock_ok (hc ▸ h)).trans (hos s hc hk)⟩
  | rxCtrl d => exact readsClockOnly_of_after _ fun s _ _ => exec_rxCtrl d s
  | rxData d =>
    cases h : decodeUplink d with
    | error st => exact readsClockOnly_of_after _ fun s _ _ => exec_rxData_error h s
    | ok u => exact readsClockOnly_of_after _ fun s _ _ => exec_rxData_ok h s

/-! ## What follows for the FIFOs, the session and the frame counters -/

/-- Settles O21: what `exec_outside` says holds from both states, which differ in their FIFOs alone. -/
theorem otherOperationsNeverTouchAFifo : Obligations.OtherOperationsNeverTouchAFifo := by
  intro i s t G H hi h
  obtain ⟨k', os, -, hexec⟩ := exec_outside hi s.cfg s.clock
  cases h.symm.trans (hexec s rfl rfl)
  exact ⟨rfl, rfl, rfl, rfl, rfl, hexec { s with rx := G, tx := H } rfl rfl⟩

/-- Settles O40. -/
theorem codecOperationsArePure : Obligations.CodecOperationsArePure :=
  fun _ c hi => exec_codec hi c

/-- Settles O42. -/
theorem badTimeslotIsAnInvalidArgument : Obligations.BadTimeslotIsAnInvalidArgument :=
  fun _ gain fn bits s hts => ⟨exec_encDl_badTimeslot hts gain fn bits s, exec_sessSendBurst_badTimeslot gain fn bits hts⟩

/-- Every operation moves the frame-clock unit in one of the four ways; a FIFO operation leaves it (`exec_keeps_elsewhere`). -/
theorem exec_clockMove {i : Instr} {s t : State} (h : exec i s = .next t) : ClockMove s.cfg s.clock i t.clock := by
  cases hi : instrFifo i with
  | some f =>
    have hsame : t.clock = s.clock :=
      congrArg (fun e : Elsewhere => Clock.mk e.available e.setupComplete e.trxFrame e.currentFrame) (exec_keeps_elsewhere hi h)
    rw [hsame]
    exact .stays i
  | none =>
    obtain ⟨k', os, hmove, hexec⟩ := exec_outside hi s.cfg s.clock
    cases h.symm.trans (hexec s rfl rfl)
    exact hmove

/-- Settles O38: of the four moves a timeout and a clock indication touch the session, the latter only when setup is not complete. -/
theorem onlyHeartbeatAndTimeoutMoveTheSession : Obligations.OnlyHeartbeatAndTimeoutMoveTheSession := by
  intro i s t h hchange
  have hmove := exec_clockMove h
  have hchange : t.clock.available ≠ s.clock.available ∨ t.clock.setupComplete ≠ s.clock.setupComplete := hchange
  show (_ ∧ t.clock.available = false ∧ t.clock.setupComplete = false) ∨
    (∃ v, _ ∧ s.clock.setupComplete = false ∧ t.clock.available = true ∧ t.clock.setupComplete = true)
  generalize s.clock = k at hmove hchange ⊢
  generalize t.clock = k' at hmove hchange ⊢
  cases hmove with
  | stays => exact absurd hchange (by simp)
  | advances => exact absurd hchange (by simp)
  | expires => exact .inl ⟨rfl, rfl, rfl⟩
  | beats hv =>
    cases hsetup : k.setupComplete with
    | true => exact absurd hchange (by simp [Clock.beat, hsetup])
    | false => exact .inr ⟨_, hv, rfl, by simp [Clock.beat, hsetup], rfl⟩

/-- Settles O39: a clock indication moves both counters, an advance the scheduling frame. -/
theorem frameCountersMoveOnlyOnClockRequests : Obligations.FrameCountersMoveOnlyOnClockRequests := by
  intro i s t h
  have hmove := exec_clockMove h
  show (t.clock.trxFrame ≠ s.clock.trxFrame → carriesClock s.cfg i t.clock.trxFrame) ∧
    (t.clock.currentFrame ≠ s.clock.currentFrame → (∃ v, carriesClock s.cfg i v ∧ t.clock.trxFrame = v) ∨ i = .clkAdvance)
  generalize s.clock = k at hmove ⊢
  generalize t.clock = k' at hmove ⊢
  cases hmove with
  | stays => exact ⟨fun hne => absurd rfl hne, fun hne => absurd rfl hne⟩
  | advances => exact ⟨fun hne => absurd rfl hne, fun _ => .inr rfl⟩
  | expires => exact ⟨fun hne => absurd rfl hne, fun hne => absurd rfl hne⟩
  | beats hv => exact ⟨fun _ => hv, fun _ => .inl ⟨_, hv, rfl⟩⟩

/-! ## The output history -/

/-- The same state with more output history. -/
def State.withHistory (s : State) (hist : List Output) : State := { s with out := hist ++ s.out }

section
variable (s : State) (hist : List Output)

@[simp] theorem withHistory_fifo (f : FifoSel) : (s.withHistory hist).fifo f = s.fifo f := by cases f <;> rfl

@[simp] theorem withHistory_capacity (f : FifoSel) : (s.withHistory hist).capacity f = s.capacity f := rfl

theorem emit_withHistory (os : List Output) : (s.withHistory hist).emit os = (s.emit os).withHistory hist := by
  simp only [State.withHistory, State.emit, List.append_assoc]

theorem emitDiagIf_withHistory (b : Bool) (d : DiagCode) :
    (s.withHistory hist).emitDiagIf b d = (s.emitDiagIf b d).withHistory hist := by
  cases b
  · rfl
  · exact emit_withHistory s hist [.diag d]

theorem respond_withHistory (st : Status) (fl : Byte) (v : Int) (ex : List Word) (pl : List Nat) :
    (s.withHistory hist).respond st fl v ex pl = (s.respond st fl v ex pl).withHistory hist :=
  emit_withHistory s hist _

theorem raise_withHistory (st : Status) : (s.withHistory hist).raise st = (s.raise st).withHistory hist :=
  emit_withHistory s hist _

theorem setFifo_withHistory (f : FifoSel) (F : Fifo) :
    (s.withHistory hist).setFifo f F = (s.setFifo f F).withHistory hist := by cases f <;> rfl

end

theorem execFifoWrite_withHistory {f : FifoSel} {count : Word} {ts : Timestamp} {data : List Sample} {s t : State}
    (h : execFifoWrite f count ts data s = .next t) (hist : List Output) :
    execFifoWrite f count ts data (s.withHistory hist) = .next (t.withHistory hist) := by
  unfold execFifoWrite at h ⊢
  simp only [withHistory_fifo, withHistory_capacity, raise_withHistory, emitDiagIf_withHistory, setFifo_withHistory,
    respond_withHistory] at h ⊢
  split_ifs at h ⊢ <;> cases h <;> rfl

theorem execFifoRead_withHistory {f : FifoSel} {maxCount : Word} {ts : Timestamp} {s t : State}
    (h : execFifoRead f maxCount ts s = .next t) (hist : List Output) :
    execFifoRead f maxCount ts (s.withHistory hist) = .next (t.withHistory hist) := by
  have hcfg : (s.withHistory hist).cfg = s.cfg := rfl
  have hdraws : (s.withHistory hist).draws = s.draws := rfl
  unfold execFifoRead at h ⊢
  simp only [withHistory_fifo, withHistory_capacity, hcfg, hdraws, raise_withHistory, respond_withHistory] at h ⊢
  split_ifs at h ⊢ <;> cases h
  case neg =>
    have hemit := emit_withHistory (State.setFifo { s with draws := s.draws + 1 } f
      ((s.fifo f).consumed (signedWord maxCount) (signedTimestamp ts))) hist
    rw [← setFifo_withHistory] at hemit
    exact congrArg Host.Outcome.next (hemit _)
  all_goals rfl

theorem exec_withHistory_of_fifo {i : Instr} {f : FifoSel} (hi : instrFifo i = some f) {s t : State} (h : exec i s = .next t)
    (hist : List Output) : exec i (s.withHistory hist) = .next (t.withHistory hist) := by
  cases i <;> cases hi
  case fifoOpen =>
    cases h
    simp only [exec, execFifoOpen, setFifo_withHistory, respond_withHistory]
  case fifoClose =>
    cases h
    simp only [exec, execFifoClose, setFifo_withHistory, respond_withHistory]
  case fifoWrite => exact execFifoWrite_withHistory h hist
  case fifoRead => exact execFifoRead_withHistory h hist
  case fifoStatus =>
    cases h
    simp only [exec, execFifoStatus, withHistory_fifo, withHistory_capacity, respond_withHistory]

/-- No operation reads the output history (10_state.md R44, R50). -/
theorem exec_withHistory {i : Instr} {s t : State} (h : exec i s = .next t) (hist : List Output) :
    exec i (s.withHistory hist) = .next (t.withHistory hist) := by
  cases hi : instrFifo i with
  | none =>
    obtain ⟨k', os, -, hexec⟩ := exec_outside hi s.cfg s.clock
    cases h.symm.trans (hexec s rfl rfl)
    exact (hexec (s.withHistory hist) rfl rfl).trans (congrArg Host.Outcome.next (emit_withHistory (s.setClock k') hist os))
  | some f => exact exec_withHistory_of_fifo hi h hist

/-- No step reads it: a step is idle, an operation or a refusal. -/
theorem step_withHistory {s t : State} (h : step s = .next t) (hist : List Output) :
    step (s.withHistory hist) = .next (t.withHistory hist) := by
  cases hreq : s.req with
  | nil =>
    cases (blockWaitsForARequest s hreq).symm.trans h
    exact blockWaitsForARequest _ hreq
  | cons r rest =>
    have hreq' : (s.withHistory hist).req = r :: rest := hreq
    cases hdec : decode s.cfg r with
    | ok i =>
      rw [step_of_decode hreq hdec] at h
      exact (step_of_decode hreq' hdec).trans (exec_withHistory h hist)
    | error e =>
      cases (step_of_reject hreq hdec).symm.trans h
      exact (step_of_reject hreq' hdec).trans (congrArg Host.Outcome.next (emit_withHistory { s with req := rest } hist _))

/-- Settles O16 (`step_withHistory`). -/
theorem outputHistoryIsNeverReadBack : Obligations.OutputHistoryIsNeverReadBack :=
  fun _ _ hist h => step_withHistory h hist

end Sys2Proof.Machine
end

section
/-! PROOF. Runs of CLK.ADVANCE (41_frameclock.md R180 item 2), by induction on their number, and the invariant of the reset state. -/

namespace Sys2Proof.Machine

open Sys2Proof

/-! ## Advances in a row -/

theorem run_succ_of_step {s t : State} (h : step s = .next t) (k : Nat) :
    Host.Core.run Sys2Proof.core (k + 1) s = Host.Core.run Sys2Proof.core k t := by
  have hcore : Sys2Proof.core.step s = .next t := h
  simp only [Host.Core.run, hcore]

/-- A step that takes a CLK.ADVANCE request. -/
theorem step_clkAdvance {s : State} {rest : List Request} (hreq : s.req = encode .clkAdvance :: rest) :
    step s = .next ({ s with
      req := rest, currentFrame := BitVec.ofNat 32 (advanceFrame s.cfg s.currentFrame.toNat) }.after
        [okRsp (advanceFrame s.cfg s.currentFrame.toNat) [] []]) :=
  (step_of_decode hreq (decode_encode rfl)).trans (exec_clkAdvance { s with req := rest })

/-- After `k` advances the frame has moved on by `k` times `ADVANCE_STEP`, modulo `FRAME_MODULUS`. -/
theorem run_advances (k : Nat) {s : State} {rest : List Request} (hc : s.cfg.wf)
    (hcur : s.currentFrame.toNat < s.cfg.frameModulus) (hreq : s.req = List.replicate k (encode .clkAdvance) ++ rest) :
    ∃ t : State, Host.Core.run Sys2Proof.core k s = .next t ∧
      t.currentFrame.toNat = (s.currentFrame.toNat + k * s.cfg.advanceStep) % s.cfg.frameModulus ∧ t.req = rest := by
  induction k generalizing s with
  | zero => exact ⟨s, rfl, by rw [Nat.zero_mul, Nat.add_zero, Nat.mod_eq_of_lt hcur], hreq⟩
  | succ k ih =>
    rw [List.replicate_succ, List.cons_append] at hreq
    rw [run_succ_of_step (step_clkAdvance hreq)]
    have hlt := advanceFrame_lt s.cfg hc s.currentFrame.toNat
    have hframe := frameWord_toNat _ hlt
    obtain ⟨t, hrun, hmoved, hrest⟩ := ih (s := State.after { s with
      req := List.replicate k (encode .clkAdvance) ++ rest,
      currentFrame := BitVec.ofNat 32 (advanceFrame s.cfg s.currentFrame.toNat) } _) hc (frameWord_bounds hc hlt).1 rfl
    refine ⟨t, hrun, hmoved.trans ?_, hrest⟩
    rw [hframe, advanceFrame, Nat.mod_add_mod, Nat.succ_mul, Nat.add_assoc, Nat.add_comm s.cfg.advanceStep]

/-- Settles O35 (`run_advances`): the modulus divides the sum of the steps. -/
theorem modulusAdvancesReturnTheFrame : Obligations.ModulusAdvancesReturnTheFrame := by
  intro s rest hc hcur hreq
  obtain ⟨t, hrun, hmoved, hrest⟩ := run_advances _ hc hcur hreq
  rw [Nat.add_mul_mod_self_left, Nat.mod_eq_of_lt hcur] at hmoved
  exact ⟨t, hrun, BitVec.eq_of_toNat_eq hmoved, hrest⟩

/-! ## The reset state -/

theorem resetWith_inv {c : Config} (hc : c.wf) : Inv (State.resetWith c) := by
  have ⟨⟨hrx, _⟩, ⟨htx, _⟩, hmod, _⟩ := hc
  have hpos : 0 < c.frameModulus := by rw [hmod]; decide
  exact ⟨hc, emptyFifo_inv c c.capRx hrx false, emptyFifo_inv c c.capTx htx false, ⟨hpos, rfl⟩, nofun⟩

/-- Settles O18: the reset state is that of the reference configuration, which is legal. -/
theorem resetMeetsTheInvariant : Obligations.ResetMeetsTheInvariant :=
  ⟨resetWith_inv (by decide), fun _ hc => resetWith_inv hc⟩

end Sys2Proof.Machine
end
